-- ==== Sys2Proof/Word.lean ====
section
/-! DEFINITION. The word types of the machine (spec/00_scope.md R6, R10). -/

namespace Sys2Proof

/-- One memory cell, `CELL_BITS = 8` (R6, R21; log 2). -/
abbrev Byte := BitVec 8

/-- The opcode field, `OPCODE_BITS = 7` (R6, R71). -/
abbrev Opcode := BitVec 7

/-- The operand field, `OPERAND_BITS = 17`, unsigned (R6, R71, R74). -/
abbrev Operand := BitVec 17

/-- One entry of the operand stack, `STACK_ENTRY_BITS = 17`, unsigned (R6, R22; log 4). -/
abbrev Entry := BitVec 17

/-- An instruction word, `WORD_BITS = 24` (R6, R70). -/
abbrev InstrWord := BitVec 24

/-! A cell address is a natural number, `Nat`, never reduced modulo anything (R10, R40, R133). -/

end Sys2Proof
end

