-- ==== Sys2Proof/Config.lean ====
section
/-! DEFINITION. What is fixed for the machine: the constants of R6, the parameter CAPACITY of R5, and the shape of the
Instruction Set Descriptor's rows (R75, R79). The rows themselves stand in Decode.lean. The spec leaves no value free
(93_implementation_defined.md), so there is no free value here. -/

namespace Sys2Proof

/-- `WORD_BYTES`: the cells of an instruction word, and the step of the program counter (R6). -/
def wordBytesCount : Nat := 3

/-- `OPERAND_MAX` (R6). -/
def operandMax : Nat := 131071

/-- The parameters of one machine, fixed at reset (R5, R20). STACK_DEPTH is no field: under the requirement of R7 it
limits nothing (log 4). -/
structure Config where
  /-- `CAPACITY`, the number of memory cells: any natural number, zero included (R5). -/
  capacity : Nat
deriving DecidableEq, Repr

/-- The source's example capacity, 2048 cells (R5). DESIGN CHOICE (log 1): `State.reset` is built with it. -/
def Config.sample : Config := ⟨2048⟩

/-- The four mnemonics (R75). The zero sentinel has none (R76). -/
inductive Mnemonic where
  | push | load | store | popcnt
deriving DecidableEq, Repr

/-- The roles an operand has in the descriptor table (R74, R75). -/
inductive OperandRole where
  /-- "literal value to push" -/
  | literal
  /-- "absolute address to read" -/
  | absoluteAddress
  /-- "byte offset added to an address popped from the stack" -/
  | offset
deriving DecidableEq, Repr

/-- One row of the Instruction Set Descriptor (R75). Every operand arity is 1 (R71). -/
structure OpcodeSpec where
  mnemonic : Mnemonic
  /-- The spelling in assembly text (R85). -/
  name     : String
  opcode   : Opcode
  role     : OperandRole
deriving DecidableEq, Repr

end Sys2Proof
end

