-- ==== Sys2Proof/Syntax.lean ====
section
/-! DEFINITION. The instructions: one constructor per row of spec/opcode_table.json. -/

namespace Sys2Proof

/-- The five rows of the opcode table: the four instructions of R75 and the zero sentinel of R76. All 131072 operand
values are legal for each of the four (R75, R88). -/
inductive Instr where
  /-- PUSH operand: push the literal (R120). -/
  | push (operand : Operand)
  /-- LOAD operand: push the cell at the absolute address (R121). -/
  | load (operand : Operand)
  /-- STORE operand: write the value beneath the popped base at base plus operand (R130). -/
  | store (operand : Operand)
  /-- POPCNT operand: push the number of one bits of the cell at the popped base plus operand (R131). -/
  | popcnt (operand : Operand)
  /-- ZERO_WORD: the all-zero word, the halt sentinel (R76, R103). -/
  | zeroWord
deriving DecidableEq, Repr

/-- The instruction a mnemonic and an operand stand for (R75). -/
def Instr.ofMnemonic : Mnemonic → Operand → Instr
  | .push,   v => .push v
  | .load,   v => .load v
  | .store,  v => .store v
  | .popcnt, v => .popcnt v

/-- The mnemonic of an instruction; the zero sentinel has none (R76). -/
def Instr.mnemonic? : Instr → Option Mnemonic
  | .push _   => some .push
  | .load _   => some .load
  | .store _  => some .store
  | .popcnt _ => some .popcnt
  | .zeroWord => none

end Sys2Proof
end

