-- ==== Sys2Proof/WellFormed.lean ====
section
/-! DEFINITION. Which terms are well formed: the assembler's commands (R80, R81) and the instructions they may stand for.
An `Instr` carries its operand as a 17-bit field, so its range needs no check of its own: every operand value is legal for
every instruction (R75, R88). The range check of R81 is on `Command`, whose operand is an integer. -/

namespace Sys2Proof

/-- The assembler's record, one per source line (00_scope.md section 6; R80). -/
structure Command where
  mnemonic   : Mnemonic
  operand    : Int
  sourceLine : Nat
deriving DecidableEq, Repr

/-- What a failed `encode` reports: "the source line and the offending value" (R81). -/
structure EncodingError where
  sourceLine : Nat
  operand    : Int
deriving DecidableEq, Repr

/-- `0 <= operand <= 131071` (R80, R81; a negative operand is out of range, log 18). -/
def Command.wellFormed (c : Command) : Bool :=
  decide (0 ≤ c.operand) && decide (c.operand ≤ (operandMax : Int))

/-- Every command of a unit is in range (R81: one error aborts the whole unit). -/
def unitWellFormed (cs : List Command) : Bool := cs.all Command.wellFormed

/-- The instructions the assembler can emit: those with a mnemonic; the zero sentinel is not one (R76, R86). -/
def Instr.assembles (i : Instr) : Bool := i.mnemonic?.isSome

end Sys2Proof
end

