-- ==== Sys2Proof/Decode.lean ====
section
/-! DEFINITION. The instruction_decoder: byte order, field split, opcode map, decode; then the encoder, the inverse
(spec/30_encoding.md R70 to R88). -/

namespace Sys2Proof

/-! Byte order (R44, R72). -/

/-- `byte0 | byte1 << 8 | byte2 << 16`: the first byte is the cell at the lowest address (R43, R44). -/
def wordOfBytes (b0 b1 b2 : Byte) : InstrWord :=
  b0.setWidth 24 ||| (b1.setWidth 24 <<< 8) ||| (b2.setWidth 24 <<< 16)

/-- `w[7:0]`, `w[15:8]`, `w[23:16]`, in address order (R72). -/
def wordBytes (w : InstrWord) : List Byte :=
  [w.extractLsb' 0 8, w.extractLsb' 8 8, w.extractLsb' 16 8]

/-! Fields (R71, R73). -/

/-- `opcode = w & 0x7F = w[6:0]` (R73). -/
def opcodeField (w : InstrWord) : Opcode := w.extractLsb' 0 7

/-- `operand = w >> 7 = w[23:7]`, 17 contiguous unsigned bits (R73, R74). -/
def operandField (w : InstrWord) : Operand := w.extractLsb' 7 17

/-! The opcode map (R75, R79). UNVERIFIED literals (log 13). -/

/-- The four rows of the Instruction Set Descriptor (R75). -/
def specOf : Mnemonic → OpcodeSpec
  | .push   => ⟨.push,   "PUSH",   34, .literal⟩
  | .load   => ⟨.load,   "LOAD",   33, .absoluteAddress⟩
  | .store  => ⟨.store,  "STORE",  80, .offset⟩
  | .popcnt => ⟨.popcnt, "POPCNT", 14, .offset⟩

/-- "A fixed, compile-time table with four entries" (R75); it never changes (R79). -/
def descriptorTable : List OpcodeSpec :=
  [specOf .push, specOf .load, specOf .store, specOf .popcnt]

/-- The opcode value of a mnemonic (R75). -/
def opcodeOf (m : Mnemonic) : Opcode := (specOf m).opcode

/-- The inverse map the dispatch unit uses, from opcode value to operation (R79). -/
def mnemonicOfOpcode (op : Opcode) : Option Mnemonic :=
  (descriptorTable.find? fun r => r.opcode == op).map (·.mnemonic)

/-- `lookup(mnemonic) -> Option<OpcodeSpec>` (R79), with the case-insensitive spelling of R85 (log 18). -/
def lookup (name : String) : Option OpcodeSpec :=
  descriptorTable.find? fun r => r.name.toList == name.toList.map Char.toUpper

/-! Decoding. -/

/-- What a 24-bit word is (R78): an instruction or the sentinel, or an undefined word, named by its opcode field. -/
inductive Decoded where
  | instr (i : Instr)
  | undefinedOpcode (opcode : Opcode)
deriving DecidableEq, Repr

/-- Decode of a fetched word, total (R73, R75 to R78): the zero test is on the whole word and comes before the split into
fields (R76, R103); then the opcode field alone selects the instruction (R75). -/
def decodeWord (w : InstrWord) : Decoded :=
  if w = 0 then .instr .zeroWord
  else
    match mnemonicOfOpcode (opcodeField w) with
    | some m => .instr (Instr.ofMnemonic m (operandField w))
    | none => .undefinedOpcode (opcodeField w)

/-- Decoding from bytes in address order, with the bytes that follow; `none` is `Incomplete`: fewer than three bytes
(R43, R72). -/
def decodeBytes : List Byte → Option (Decoded × List Byte)
  | b0 :: b1 :: b2 :: rest => some (decodeWord (wordOfBytes b0 b1 b2), rest)
  | _ => none

/-! The encoder (R80 to R84). -/

/-- `opcode(mnemonic) | (operand << 7)` (R80). -/
def encodeFields (m : Mnemonic) (operand : Operand) : InstrWord :=
  (opcodeOf m).setWidth 24 ||| (operand.setWidth 24 <<< 7)

/-- The word of an instruction (R75, R76, R80). -/
def encode : Instr → InstrWord
  | .push v   => encodeFields .push v
  | .load v   => encodeFields .load v
  | .store v  => encodeFields .store v
  | .popcnt v => encodeFields .popcnt v
  | .zeroWord => 0

/-- The three bytes of an instruction in address order (R72). -/
def encodeBytes (i : Instr) : List Byte := wordBytes (encode i)

/-- The instruction a command stands for, its operand taken as 17 bits; meant for commands in range (R80). -/
def Command.toInstr (c : Command) : Instr :=
  Instr.ofMnemonic c.mnemonic (BitVec.ofInt 17 c.operand)

/-- `encode(command)`: the word, or an `EncodingError` when the operand is out of range (R80, R81). -/
def encodeCommand (c : Command) : Except EncodingError InstrWord :=
  if c.wellFormed then .ok (encode c.toInstr)
  else .error ⟨c.sourceLine, c.operand⟩

/-- Assembly of a unit: the commands' words in source order, no padding; the first error aborts the whole unit and no
binary is emitted (R81, R82, R84). -/
def assemble : List Command → Except EncodingError (List Byte)
  | [] => .ok []
  | c :: cs =>
    match encodeCommand c with
    | .error e => .error e
    | .ok w =>
      match assemble cs with
      | .error e => .error e
      | .ok bytes => .ok (wordBytes w ++ bytes)

/-! The host's reading of a table word. -/

/-- The instruction the decoder reads from the bytes of an instruction whose bits are `w`, numbered as
spec/opcode_table.json numbers them; the bits above `nbits` are 0. -/
def decodeTableWord (nbits w : Nat) : Option Instr :=
  match decodeBytes (wordBytes (BitVec.ofNat 24 (w % 2 ^ nbits))) with
  | some (.instr i, []) => some i
  | _ => none

end Sys2Proof
end

