-- ==== Sys2Proof/Machine/State.lean ====
section
/-! DEFINITION. The machine's state as plain data, and the state after reset (spec/10_state.md R20 to R35). -/

namespace Sys2Proof.Machine

/-- Memory as (address, byte) pairs in one canonical form: addresses strictly rising, no byte 0. An address that is not
listed reads 0, the reset contents (R33). The form is `Memory.wf` in Ops.lean. -/
abbrev Memory := List Host.Cell

/-- Why the core halted: five tagged values and no others (R27, R140). `faultPc` is the address of the first byte of the
faulting instruction (R144; log 5). -/
inductive HaltReason where
  /-- The word at `pc` was the zero sentinel; a normal end (R103, R145). -/
  | normalEnd
  /-- Fewer than three cells remained at `pc`; a normal end (R101, R145). -/
  | endOfMemory
  /-- The opcode field is none of 14, 33, 34, 80, and the word is not zero; a fault (R107, R141). -/
  | undefinedInstruction (opcode : Opcode) (faultPc : Nat)
  /-- A data access to an address at or above CAPACITY; a fault (R142). -/
  | outOfBounds (addr : Nat) (faultPc : Nat)
  /-- STORE with fewer than two entries, or POPCNT with none; a fault (R143). -/
  | stackUnderflow (faultPc : Nat)
deriving DecidableEq, Repr

/-- The run state (R26). -/
inductive Status where
  | running
  | halted (reason : HaltReason)
deriving DecidableEq, Repr

/-- What stops the machine without a next state. No STEP ends in one: every halt of this hardware is a next state with
`status = Halted(reason)` (R148; log 14). -/
inductive Fault where
  /-- Raised by the driver operation `load_program` when the program does not fit (R55, R152); it changes nothing. Safe. -/
  | programTooLarge
deriving DecidableEq, Repr

/-- What the model gives no meaning. -/
inductive Refusal where
  /-- Raised by `exec` for an instruction without a meaning; there is none. Safe. -/
  | notModelled (mnemonic : String)
  /-- Raised by the driver operation `load_program` outside the reset state: "A load at any other time has no meaning in
  this spec" (R55; U8; log 9). Safe. -/
  | loadOutsideReset
  /-- Raised by the driver operation `memory_snapshot` when its range is not within `0 <= start <= end <= CAPACITY` (R56;
  U9; log 10). Safe. -/
  | snapshotOutOfRange
deriving DecidableEq, Repr

/-- The four things of R20, and the configuration they live under (log 1). -/
structure State where
  /-- CAPACITY (R5). The model's own field: a parameter of the machine, changed by no cycle (log 1). -/
  config : Config
  /-- The memory (R21). -/
  mem    : Memory
  /-- The operand stack, its TOP FIRST (R22); the spec writes it bottom first (R12). -/
  stack  : List Entry
  /-- The program counter, a byte offset into memory (R24). -/
  pc     : Nat
  /-- The run state (R26). -/
  status : Status
deriving DecidableEq, Repr

/-- `reset(CAPACITY)`: VM construction (R33, R170). -/
def State.resetWith (c : Config) : State :=
  { config := c, mem := [], stack := [], pc := 0, status := .running }

/-- The machine right after reset, with the source's example capacity of 2048 cells (R5, R33; log 1). -/
def State.reset : State := State.resetWith Config.sample

end Sys2Proof.Machine
end

