-- ==== Sys2Proof/Machine/Flags.lean ====
section
/-! DEFINITION. The hardware has no flags, condition codes or predicates (R29): no instruction sets or reads one. What a
reader finds here instead are the tests on the run state, the only status the hardware has (R26, R30). -/

namespace Sys2Proof.Machine

/-- The three faults; NormalEnd and EndOfMemory are not faults (R27, R145). -/
def HaltReason.isFault : HaltReason → Bool
  | .normalEnd => false
  | .endOfMemory => false
  | .undefinedInstruction _ _ => true
  | .outOfBounds _ _ => true
  | .stackUnderflow _ => true

/-- `status = Halted(r)` for some r (R26). -/
def Status.isHalted : Status → Bool
  | .running => false
  | .halted _ => true

/-- The numbering 92_eei_decisions.md D11 offers to an implementation; no rule and no part of the machine reads it (log 20). -/
def Status.code : Status → Nat
  | .running => 0
  | .halted .normalEnd => 1
  | .halted .endOfMemory => 2
  | .halted (.undefinedInstruction _ _) => 3
  | .halted (.outOfBounds _ _) => 4
  | .halted (.stackUnderflow _) => 5

end Sys2Proof.Machine
end

