-- ==== Sys2Proof/Machine/Operands.lean ====
section
/-! DEFINITION. The operand forms and the arithmetic of the core (R74, R114, R132, R133). -/

namespace Sys2Proof.Machine

/-- The absolute address of LOAD: the operand itself (R74, R121). -/
def absoluteAddress (operand : Operand) : Nat := operand.toNat

/-- `ea = base + operand`: the exact sum as naturals, 0 to 262142, never wrapped (R133; log 8). -/
def effectiveAddress (base : Entry) (operand : Operand) : Nat := base.toNat + operand.toNat

/-- `zext_17`: a loaded cell as a stack entry; the number does not change (R46, R121). -/
def entryOfByte (b : Byte) : Entry := b.setWidth 17

/-- `value mod 256`: the low 8 bits of a popped entry, what a STORE writes (R42; log 3). -/
def byteOfEntry (v : Entry) : Byte := v.setWidth 8

/-- `v[0:0] + ... + v[7:7]` (R132). -/
def popcount8 (v : Byte) : Nat :=
  (v.getLsbD 0).toNat + (v.getLsbD 1).toNat + (v.getLsbD 2).toNat + (v.getLsbD 3).toNat +
  (v.getLsbD 4).toNat + (v.getLsbD 5).toNat + (v.getLsbD 6).toNat + (v.getLsbD 7).toNat

/-- A population count, 0 to 8, as a stack entry (R131). -/
def entryOfCount (n : Nat) : Entry := BitVec.ofNat 17 n

end Sys2Proof.Machine
end

