-- ==== Sys2Proof/Machine/Ops.lean ====
section
/-! DEFINITION. The named operations over memory, the stack, the program counter and the run state; halting, the one way
this hardware takes an exceptional event. -/

namespace Sys2Proof.Machine

/-! The cells (R21, R47). -/

/-- The canonical form from address `lo` on: addresses strictly rising, no byte 0. -/
def Memory.wfFrom : Nat → Memory → Bool
  | _, [] => true
  | lo, (k, v) :: rest => decide (lo ≤ k) && decide (v ≠ 0) && Memory.wfFrom (k + 1) rest

/-- The canonical form, in which equal memories are equal data. -/
def Memory.wf (m : Memory) : Bool := Memory.wfFrom 0 m

/-- Every listed cell exists: its address is below `capacity` (R21). -/
def Memory.within (capacity : Nat) (m : Memory) : Bool := m.all fun c => decide (c.1 < capacity)

/-- The cell at an address; one that is not listed reads 0, the reset contents (R33, R47). -/
def Memory.read : Memory → Nat → Byte
  | [], _ => 0
  | (k, v) :: rest, a => if a = k then v else Memory.read rest a

/-- The memory with no entry at `a`. -/
def Memory.erase : Memory → Nat → Memory
  | [], _ => []
  | (k, v) :: rest, a => if a = k then Memory.erase rest a else (k, v) :: Memory.erase rest a

/-- A new entry at its place in the order. -/
def Memory.insert : Memory → Nat → Byte → Memory
  | [], a, b => [(a, b)]
  | (k, v) :: rest, a, b =>
    if a < k then (a, b) :: (k, v) :: rest else (k, v) :: Memory.insert rest a b

/-- `mem[a] <- b`. Writing 0, what an unlisted address reads as, removes the entry. -/
def Memory.write (m : Memory) (a : Nat) (b : Byte) : Memory :=
  if b = 0 then m.erase a else (m.erase a).insert a b

/-- `mem[a + i] <- bytes[i]` in order, for load_program (R55) and the placing of a word (R72). -/
def Memory.writeBytes : Memory → Nat → List Byte → Memory
  | m, _, [] => m
  | m, a, b :: bs => Memory.writeBytes (m.write a b) (a + 1) bs

/-! The memory_read_write_unit (R41 to R43). -/

/-- `CAPACITY` of this machine (R5). -/
def State.capacity (s : State) : Nat := s.config.capacity

/-- The state with another memory. -/
def State.setMem (s : State) (m : Memory) : State := { s with mem := m }

/-- `MemRead(a, 1)`; `none` is OutOfBounds, to which the caller adds its `fault_pc` (R41). -/
def State.memRead (s : State) (a : Nat) : Option Byte :=
  if a < s.capacity then some (s.mem.read a) else none

/-- `MemWrite(a, 1, v)`: the low 8 bits of `v`; `none` is OutOfBounds, with memory unchanged (R42; log 3). -/
def State.memWrite (s : State) (a : Nat) (v : Entry) : Option State :=
  if a < s.capacity then some (s.setMem (s.mem.write a (byteOfEntry v))) else none

/-- `FetchWord(a)`: three cells, little-endian; `none` is Incomplete, which is no fault (R43, R44). -/
def State.fetchWord (s : State) (a : Nat) : Option InstrWord :=
  if a + 2 < s.capacity then
    some (wordOfBytes (s.mem.read a) (s.mem.read (a + 1)) (s.mem.read (a + 2)))
  else none

/-! The stack_controller (R22, R143). -/

/-- The state with another stack. -/
def State.setStack (s : State) (entries : List Entry) : State := { s with stack := entries }

/-- The number of entries (R22). -/
def State.depth (s : State) : Nat := s.stack.length

/-- `push(v)`: `v` is the new top (R22). It cannot overflow (R23; log 4). -/
def State.push (s : State) (v : Entry) : State := s.setStack (v :: s.stack)

/-- The depth test for one entry and the pop of the top; `none` is StackUnderflow, with nothing popped (R131, R143). -/
def State.popOne (s : State) : Option (Entry × State) :=
  match s.stack with
  | top :: rest => some (top, s.setStack rest)
  | [] => none

/-- The depth test for two entries, then two pops: the top, the entry beneath it, the state after; `none` is
StackUnderflow, with nothing popped (R130, R143; log 7). -/
def State.popTwo (s : State) : Option (Entry × Entry × State) :=
  match s.stack with
  | top :: beneath :: rest => some (top, beneath, s.setStack rest)
  | _ => none

/-! The program_counter_sequencer (R105, R148). -/

/-- `pc <- pc + 3`, before the instruction's effects (R105). -/
def State.advancePc (s : State) : State := { s with pc := s.pc + wordBytesCount }

/-- Cycles that reached dispatch since reset (R25; log 23). -/
def State.cyclesExecuted (s : State) : Nat := s.pc / wordBytesCount

/-- `halt(reason)` and `raise <Fault>(info)`: `status <- Halted(reason)`, and nothing else. There is no vector, no handler,
no saved register and no mode change (R148). There is no return from it (R150): no operation here sets `running`. -/
def State.halt (s : State) (r : HaltReason) : State := { s with status := .halted r }

/-- A word that dispatch finds no arm for: `pc` advances, then UndefinedInstruction is raised (R107; logs 5, 6). -/
def State.undefinedInstruction (s : State) (opcode : Opcode) : State :=
  s.advancePc.halt (.undefinedInstruction opcode s.pc)

end Sys2Proof.Machine
end

