-- ==== Sys2Proof/Machine/PushLoad.lean ====
section
/-! DEFINITION. PUSH and LOAD (spec/41_push_load.md). Each meaning starts from the state at the beginning of the cycle, where
`pc` is the instruction's address `ipc`, and advances `pc` before its effects (R105; log 15). -/

namespace Sys2Proof.Machine

/-- PUSH (R120): `push(operand)`. -/
def execPush (operand : Operand) (s : State) : Host.Outcome State Fault Refusal :=
  .next (s.advancePc.push operand)

/-- LOAD (R121): read the cell at the absolute address and push it, zero-extended; OutOfBounds pushes nothing. -/
def execLoad (operand : Operand) (s : State) : Host.Outcome State Fault Refusal :=
  let t := s.advancePc
  match t.memRead (absoluteAddress operand) with
  | none => .next (t.halt (.outOfBounds (absoluteAddress operand) s.pc))
  | some b => .next (t.push (entryOfByte b))

end Sys2Proof.Machine
end

