-- ==== Sys2Proof/Machine/Sentinel.lean ====
section
/-! DEFINITION. The zero sentinel (spec/40_cycle_and_dispatch.md R103). -/

namespace Sys2Proof.Machine

/-- ZERO_WORD (R103): `status <- Halted(NormalEnd)`; `pc` is not advanced. -/
def execZeroWord (s : State) : Host.Outcome State Fault Refusal :=
  .next (s.halt .normalEnd)

end Sys2Proof.Machine
end

