-- ==== Sys2Proof/Machine/StorePopcnt.lean ====
section
/-! DEFINITION. STORE and POPCNT (spec/42_store_popcnt.md), from the state at the beginning of the cycle (log 15). -/

namespace Sys2Proof.Machine

/-- STORE (R130): the depth test, then pop the base address, pop the value, form `ea`, and write the value's low 8 bits.
OutOfBounds is raised after both pops (log 7). -/
def execStore (operand : Operand) (s : State) : Host.Outcome State Fault Refusal :=
  let t := s.advancePc
  match t.popTwo with
  | none => .next (t.halt (.stackUnderflow s.pc))
  | some (base, value, u) =>
    match u.memWrite (effectiveAddress base operand) value with
    | none => .next (u.halt (.outOfBounds (effectiveAddress base operand) s.pc))
    | some u' => .next u'

/-- POPCNT (R131): the depth test, then pop the base address, form `ea`, read the cell, and push its number of one bits.
OutOfBounds is raised after the pop (log 7). -/
def execPopcnt (operand : Operand) (s : State) : Host.Outcome State Fault Refusal :=
  let t := s.advancePc
  match t.popOne with
  | none => .next (t.halt (.stackUnderflow s.pc))
  | some (base, u) =>
    match u.memRead (effectiveAddress base operand) with
    | none => .next (u.halt (.outOfBounds (effectiveAddress base operand) s.pc))
    | some b => .next (u.push (entryOfCount (popcount8 b)))

end Sys2Proof.Machine
end

