-- ==== Sys2Proof/Machine/Dispatch.lean ====
section
/-! DEFINITION. The opcode_dispatch_unit (R106): one arm per instruction, from the state at the beginning of the cycle (log 15). -/

namespace Sys2Proof.Machine

def exec (i : Instr) (s : State) : Host.Outcome State Fault Refusal :=
  match i with
  | .push operand => Sys2Proof.Machine.execPush operand s
  | .load operand => Sys2Proof.Machine.execLoad operand s
  | .store operand => Sys2Proof.Machine.execStore operand s
  | .popcnt operand => Sys2Proof.Machine.execPopcnt operand s
  | .zeroWord => Sys2Proof.Machine.execZeroWord s

end Sys2Proof.Machine
end

