-- ==== Sys2Proof/Machine/Step.lean ====
section
/-! DEFINITION. One cycle (spec/40_cycle_and_dispatch.md R100), and the placing of a word where the next cycle fetches. -/

namespace Sys2Proof.Machine

/-- `step` (R100), in the order of R147: a halted core does nothing; then the end-of-memory test and the fetch (R101, R102);
then the zero test and the decode (R103, R104); then the advance and the dispatch (R105, R106), which each meaning does, or
the undefined-instruction fault (R107). -/
def step (s : State) : Host.Outcome State Fault Refusal :=
  match s.status with
  | .halted _ => .next s
  | .running =>
    match s.fetchWord s.pc with
    | none => .next (s.halt .endOfMemory)
    | some w =>
      match decodeWord w with
      | .instr i => exec i s
      | .undefinedOpcode op => .next (s.undefinedInstruction op)

/-- `s` with the instruction whose bits are `w` stored in the three cells at `pc`, and the core running, which a fetch
needs (log 16). Where fewer than three cells remain at `pc` no word can be placed, and the cells stay. -/
def State.withFetchWord (s : State) (nbits w : Nat) : State :=
  if s.pc + 2 < s.capacity then
    { s with
      mem := s.mem.writeBytes s.pc (wordBytes (BitVec.ofNat 24 (w % 2 ^ nbits)))
      status := .running }
  else s

end Sys2Proof.Machine
end

