-- ==== Sys2Proof/Machine/Driver.lean ====
section
/-! DEFINITION. The driver's operations: load_program, run, memory_snapshot, reset, step (spec/20_memory.md R55 to R58,
spec/40_cycle_and_dispatch.md R108, spec/70_reset_and_hazards.md R172). -/

namespace Sys2Proof.Machine

/-- `load_program(bytes)`: allowed only in the reset state, `status = Running` and `pc = 0`; fails with ProgramTooLarge and
changes nothing when the bytes do not fit; else copies them from address 0 (R55; log 9). -/
def State.loadProgram (s : State) (bytes : List Byte) : Host.Outcome State Fault Refusal :=
  if s.status = .running ∧ s.pc = 0 then
    if s.capacity < bytes.length then .fault .programTooLarge
    else .next (s.setMem (s.mem.writeBytes 0 bytes))
  else .refused .loadOutsideReset

/-- `memory_snapshot(start, end)`: the pairs `(a, mem[a])` for `start <= a < end`, ascending (R56; log 10). -/
def State.memorySnapshot (s : State) (start stop : Nat) : Except Refusal (List (Nat × Byte)) :=
  if start ≤ stop ∧ stop ≤ s.capacity then
    .ok ((List.range' start (stop - start)).map fun a => (a, s.mem.read a))
  else .error .snapshotOutOfRange

/-- The state one `step` answers; a step of this machine always answers one. -/
def State.cycle (s : State) : State :=
  match step s with
  | .next t => t
  | .fault _ => s
  | .refused _ => s

/-- `step` until halted, at most `n` times (R108, R110). -/
def State.runFor : Nat → State → State
  | 0, s => s
  | n + 1, s => if s.status.isHalted then s else State.runFor n s.cycle

/-- `run()`: `step` until `status` is Halted. DEDUCED (R109; log 17): `floor(CAPACITY / 3) + 1` steps always suffice. -/
def State.run (s : State) : State := State.runFor (s.capacity / wordBytesCount + 1) s

/-- The operations the core exposes to its driver (R172). -/
inductive DriverOp where
  | reset (config : Config)
  | loadProgram (bytes : List Byte)
  | step
  | run
  | memorySnapshot (start stop : Nat)
deriving DecidableEq, Repr

/-- What an operation returns (R172). -/
inductive DriverReply where
  | done
  | programTooLarge
  | halted (reason : HaltReason)
  | cells (pairs : List (Nat × Byte))
  | refused (reason : Refusal)
deriving DecidableEq, Repr

/-- What `run` returns: the halt reason (R108). -/
def Status.reply : Status → DriverReply
  | .running => .done
  | .halted r => .halted r

/-- The table of R172: each operation's effect on the state and what it returns. -/
def State.perform (s : State) : DriverOp → State × DriverReply
  | .reset c => (State.resetWith c, .done)
  | .loadProgram bytes =>
    match s.loadProgram bytes with
    | .next t => (t, .done)
    | .fault .programTooLarge => (s, .programTooLarge)
    | .refused r => (s, .refused r)
  | .step => (s.cycle, .done)
  | .run => (s.run, s.run.status.reply)
  | .memorySnapshot start stop =>
    match s.memorySnapshot start stop with
    | .ok pairs => (s, .cells pairs)
    | .error r => (s, .refused r)

end Sys2Proof.Machine
end

