-- ==== Sys2Proof/Safety.lean ====
section
/-! DEFINITION. The invariants of the machine, in the terms the statements use (R23, R25, R27, R140). -/

namespace Sys2Proof.Machine

/-- The four opcode values of the descriptor table (R75). -/
def definedOpcodes : List Opcode := [14, 33, 34, 80]

/-- The largest effective address, 131071 + 131071 (R133). -/
def maxEffectiveAddress : Nat := 262142

/-- What the recorded reason says of the state it stands in (R101, R103, R140 to R144). -/
def State.ReasonSound (s : State) : HaltReason → Prop
  | .normalEnd => s.fetchWord s.pc = some 0
  | .endOfMemory => s.capacity ≤ s.pc + 2
  | .undefinedInstruction op faultPc => s.pc = faultPc + 3 ∧ op ∉ definedOpcodes
  | .outOfBounds addr faultPc =>
      s.pc = faultPc + 3 ∧ s.capacity ≤ addr ∧ addr ≤ maxEffectiveAddress
  | .stackUnderflow faultPc => s.pc = faultPc + 3

/-- A running core has no reason; a halted one has a sound one. -/
def State.StatusSound (s : State) : Prop :=
  match s.status with
  | .running => True
  | .halted r => s.ReasonSound r

/-- The machine's invariant, in every reachable state (R21, R23, R25, R140). -/
structure State.Inv (s : State) : Prop where
  /-- Memory keeps its canonical form. -/
  memWf : s.mem.wf = true
  /-- No cell is listed at or above CAPACITY (R21). -/
  memWithin : s.mem.within s.capacity = true
  /-- `pc mod 3 = 0` (R25 (a)). -/
  pcAligned : s.pc % 3 = 0
  /-- `pc <= CAPACITY` (R25 (b)). -/
  pcInMemory : s.pc ≤ s.capacity
  /-- `depth <= pc / 3` (R23 (b)). -/
  depthBound : s.depth ≤ s.pc / 3
  /-- The recorded reason fits the state. -/
  statusSound : s.StatusSound

/-- The next cycle is a STORE that writes the cell at `a`. -/
def State.StoresTo (s : State) (a : Nat) : Prop :=
  s.status = .running ∧ ∃ w v base value rest, s.fetchWord s.pc = some w ∧ decodeWord w = .instr (.store v) ∧
    s.stack = base :: value :: rest ∧ a = effectiveAddress base v ∧ a < s.capacity

/-- The stack entries an instruction takes: its "stack in" (R120, R121, R130, R131). -/
def entriesTaken : Instr → Nat
  | .push _ => 0
  | .load _ => 0
  | .store _ => 2
  | .popcnt _ => 1
  | .zeroWord => 0

end Sys2Proof.Machine
end

