-- ==== Sys2Proof/Certificates/Slice0/Obligations.lean ====
section
/-! DEFINITION. The statements for the provers. Each docstring names the rules it formalises; a clause that rests on a
decision the spec marks as its own, or on a log entry of the model, says so. -/

open Sys2Proof Sys2Proof.Machine

/-! Encoding (30_encoding.md). -/

/-- R83: for every mnemonic and every operand of 17 bits, `encode` succeeds, decoding the word gives back the opcode and
the operand, and it is 3 bytes; conversely every word that is one of the four instructions encodes exactly one pair. -/
def Obligations.EncodedFieldsRoundTrip : Prop :=
  (∀ (m : Mnemonic) (b : Operand),
    (∀ line : Nat, encodeCommand ⟨m, (b.toNat : Int), line⟩ = .ok (encodeFields m b)) ∧
    opcodeField (encodeFields m b) = opcodeOf m ∧
    operandField (encodeFields m b) = b ∧
    (wordBytes (encodeFields m b)).length = 3) ∧
  (∀ w : InstrWord, (∃ m b, decodeWord w = .instr (Instr.ofMnemonic m b)) →
    ∃ m b, encodeFields m b = w ∧ ∀ m' b', encodeFields m' b' = w → m' = m ∧ b' = b)

/-- Decode and encode agree on every instruction, the sentinel included, through the bytes as they lie in memory, with
whatever follows them. -/
def Obligations.DecodeOfEncodedBytesIsIdentity : Prop :=
  ∀ (i : Instr) (rest : List Byte), decodeBytes (encodeBytes i ++ rest) = some (.instr i, rest)

/-- The other direction: a word that decodes to an instruction is that instruction's encoding, so no bit is dropped. -/
def Obligations.DecodedWordIsItsEncoding : Prop :=
  ∀ (w : InstrWord) (i : Instr), decodeWord w = .instr i → encode i = w

/-- R75 to R78: the sentinel is the zero word alone; a word is one of the four instructions exactly by its opcode field;
every other word is undefined, named by its opcode field. -/
def Obligations.WordsAreClassifiedByOpcode : Prop :=
  ∀ w : InstrWord,
    (decodeWord w = .instr .zeroWord ↔ w = 0) ∧
    (∀ b, decodeWord w = .instr (.push b) ↔ opcodeField w = 34 ∧ operandField w = b) ∧
    (∀ b, decodeWord w = .instr (.load b) ↔ opcodeField w = 33 ∧ operandField w = b) ∧
    (∀ b, decodeWord w = .instr (.store b) ↔ opcodeField w = 80 ∧ operandField w = b) ∧
    (∀ b, decodeWord w = .instr (.popcnt b) ↔ opcodeField w = 14 ∧ operandField w = b) ∧
    (∀ op, decodeWord w = .undefinedOpcode op ↔
      w ≠ 0 ∧ opcodeField w = op ∧ op ≠ 14 ∧ op ≠ 33 ∧ op ≠ 34 ∧ op ≠ 80)

/-- R73: `opcode = w & 0x7F = w[6:0]`, `operand = w >> 7 = w[23:7]`, for every word. -/
def Obligations.DecodeSplitsTheWord : Prop :=
  ∀ w : InstrWord,
    opcodeField w = (w &&& 0x00007F).setWidth 7 ∧ (opcodeField w).toNat = w.toNat % 128 ∧
    operandField w = (w >>> 7).setWidth 17 ∧ (operandField w).toNat = w.toNat / 128

/-- R72: the three cells of a word at `a`, and the fields seen by cell. -/
def Obligations.WordIsPlacedLeastByteFirst : Prop :=
  ∀ (m : Memory) (a : Nat) (w : InstrWord),
    (m.writeBytes a (wordBytes w)).read a = w.extractLsb' 0 8 ∧
    (m.writeBytes a (wordBytes w)).read (a + 1) = w.extractLsb' 8 8 ∧
    (m.writeBytes a (wordBytes w)).read (a + 2) = w.extractLsb' 16 8 ∧
    ((m.writeBytes a (wordBytes w)).read a).extractLsb' 0 7 = opcodeField w ∧
    ((m.writeBytes a (wordBytes w)).read a).getLsbD 7 = (operandField w).getLsbD 0 ∧
    (m.writeBytes a (wordBytes w)).read (a + 1) = (operandField w).extractLsb' 1 8 ∧
    (m.writeBytes a (wordBytes w)).read (a + 2) = (operandField w).extractLsb' 9 8

/-- Words of 95_test_vectors.md (E-6, E-14, E-23, E-34, DEC-1, DEC-2, DEC-5, DEC-7), from their bytes. -/
def Obligations.KnownWordsDecode : Prop :=
  decodeBytes [0xA2, 0x1C, 0x18] = some (.instr (.push 12345), []) ∧
  decodeBytes [0xA1, 0xFF, 0x03] = some (.instr (.load 2047), []) ∧
  decodeBytes [0x50, 0xFA, 0x00] = some (.instr (.store 500), []) ∧
  decodeBytes [0x8E, 0xFF, 0xFF] = some (.instr (.popcnt 131071), []) ∧
  decodeBytes [0x00, 0x00, 0x00] = some (.instr .zeroWord, []) ∧
  decodeBytes [0x80, 0x00, 0x00] = some (.undefinedOpcode 0, []) ∧
  decodeBytes [0xA2, 0x80, 0x00] = some (.instr (.push 257), []) ∧
  decodeBytes [0xFF, 0xFF, 0xFF] = some (.undefinedOpcode 127, [])

/-- R75, R79: the dispatch unit's inverse map answers exactly the mnemonic whose opcode it is given. -/
def Obligations.OpcodeMapIsInverted : Prop :=
  ∀ (op : Opcode) (m : Mnemonic), mnemonicOfOpcode op = some m ↔ opcodeOf m = op

/-- R80, R81: a command in range gives `opcode | (operand << 7)`; outside it, an error with the line and the value. A
negative operand is out of range by the spec's decision D22 (log 18). -/
def Obligations.EncoderChecksTheRange : Prop :=
  ∀ c : Command,
    (0 ≤ c.operand → c.operand ≤ 131071 →
      ∃ w, encodeCommand c = .ok w ∧ (w.toNat : Int) = (opcodeOf c.mnemonic).toNat + 128 * c.operand) ∧
    (c.operand < 0 ∨ 131071 < c.operand → encodeCommand c = .error ⟨c.sourceLine, c.operand⟩)

/-- R81, R82: a unit whose commands are all in range is its words in source order, three bytes each, with nothing between;
else the first offending command's error is the answer and no binary is emitted (log 18). -/
def Obligations.UnitIsConcatenatedOrAborted : Prop :=
  ∀ cs : List Command,
    ((∀ c ∈ cs, c.wellFormed = true) →
      ∃ bytes, assemble cs = .ok bytes ∧ bytes.length = 3 * cs.length ∧
        bytes = cs.flatMap fun c => encodeBytes c.toInstr) ∧
    (∀ before c after, cs = before ++ c :: after → (∀ d ∈ before, d.wellFormed = true) → c.wellFormed = false →
      assemble cs = .error ⟨c.sourceLine, c.operand⟩)

/-- R82 with R55: command number `k` of an assembled unit, loaded into a machine fresh from reset of any capacity, is what
a fetch at `3k` reads and decodes (the encoder's range and the load by the spec's decisions D22 and D9, logs 18 and 9). -/
def Obligations.LoadedUnitIsFetchedInSourceOrder : Prop :=
  ∀ (config : Config) (cs : List Command) (bytes : List Byte) (t : State),
    assemble cs = .ok bytes → (State.resetWith config).loadProgram bytes = .next t →
    ∀ (k : Nat) (hk : k < cs.length),
      ∃ w, t.fetchWord (3 * k) = some w ∧ w = encode (cs[k]).toInstr ∧ decodeWord w = .instr (cs[k]).toInstr

/-! Memory (20_memory.md). -/

/-- R41, R42, R47: a write that is in bounds is read back from its cell, low 8 bits (the spec's decision D2, log 3), and no
other cell changes; out of bounds there is no write; a cell no one wrote reads 0 (decision D16, log 11). -/
def Obligations.CellsArePlainStorage : Prop :=
  (∀ (s : State) (a : Nat) (v : Entry), a < s.capacity →
    ∃ t b, s.memWrite a v = some t ∧ t.memRead a = some b ∧ b.toNat = v.toNat % 256 ∧
      (∀ a', a' ≠ a → t.memRead a' = s.memRead a') ∧
      t.config = s.config ∧ t.stack = s.stack ∧ t.pc = s.pc ∧ t.status = s.status) ∧
  (∀ (s : State) (a : Nat) (v : Entry), s.capacity ≤ a → s.memWrite a v = none ∧ s.memRead a = none) ∧
  (∀ (config : Config) (a : Nat), a < config.capacity → (State.resetWith config).memRead a = some 0)

/-- R43: the word read is the little-endian reassembly where three cells remain, else Incomplete, which the sequencer turns
into EndOfMemory and which is never OutOfBounds. -/
def Obligations.FetchWordReassemblesOrIsIncomplete : Prop :=
  (∀ (s : State) (a : Nat), a + 2 < s.capacity →
    ∃ w, s.fetchWord a = some w ∧
      w.toNat = (s.mem.read a).toNat + 256 * (s.mem.read (a + 1)).toNat + 65536 * (s.mem.read (a + 2)).toNat) ∧
  (∀ (s : State) (a : Nat), s.capacity ≤ a + 2 → s.fetchWord a = none) ∧
  (∀ s : State, s.status = .running → s.fetchWord s.pc = none →
    step s = .next { s with status := .halted .endOfMemory })

/-! The instructions: where each completes, and its result (41_push_load.md, 42_store_popcnt.md). -/

/-- R120: PUSH completes in every state; its word; the operand on top, `pc` three on, nothing else changed. -/
def Obligations.PushCompletes : Prop :=
  ∀ (v : Operand) (s : State),
    encode (.push v) = 0x000022 ||| (v.setWidth 24 <<< 7) ∧
    exec (.push v) s = .next { s with pc := s.pc + 3, stack := v :: s.stack }

/-- LOAD of an address in bounds completes: the cell, zero-extended, on top; nothing else but `pc` changed. -/
def Obligations.LoadInBoundsCompletes : Prop :=
  ∀ (v : Operand) (s : State), v.toNat < s.capacity →
    ∃ e : Entry, exec (.load v) s = .next { s with pc := s.pc + 3, stack := e :: s.stack } ∧
      e.toNat = (s.mem.read v.toNat).toNat

/-- STORE with two entries and an effective address in bounds completes: the base is the top and the value lies beneath it,
both are popped, the cell at base plus operand holds the value's low 8 bits (decisions D2 and D8, logs 3 and 8), every
other cell is as before, and the core keeps its run state. -/
def Obligations.StoreInBoundsCompletes : Prop :=
  ∀ (v : Operand) (s : State) (base value : Entry) (rest : List Entry),
    s.stack = base :: value :: rest → base.toNat + v.toNat < s.capacity →
    ∃ t b, exec (.store v) s = .next t ∧
      t.stack = rest ∧ t.pc = s.pc + 3 ∧ t.status = s.status ∧ t.config = s.config ∧
      t.memRead (base.toNat + v.toNat) = some b ∧ b.toNat = value.toNat % 256 ∧
      ∀ a, a ≠ base.toNat + v.toNat → t.memRead a = s.memRead a

/-- POPCNT with an entry and an effective address in bounds completes: the popped base is replaced by the number of one
bits of the 8 bits of the cell at the exact sum of base and operand (the spec's decisions D1 and D8, logs 2 and 8); nothing
else but `pc` changed. -/
def Obligations.PopcntInBoundsCompletes : Prop :=
  ∀ (v : Operand) (s : State) (base : Entry) (rest : List Entry),
    s.stack = base :: rest → base.toNat + v.toNat < s.capacity →
    ∃ e : Entry, exec (.popcnt v) s = .next { s with pc := s.pc + 3, stack := e :: rest } ∧
      e.toNat = ((List.range 8).filter fun k => (s.mem.read (base.toNat + v.toNat)).getLsbD k).length

/-- R103: the sentinel halts with NormalEnd and changes only `status`; the whole word must be 0; all-zero memory halts in
the first cycle. -/
def Obligations.ZeroWordHaltsNormally : Prop :=
  (∀ s : State, exec .zeroWord s = .next { s with status := .halted .normalEnd }) ∧
  (∀ s : State, s.status = .running → s.fetchWord s.pc = some 0 →
    step s = .next { s with status := .halted .normalEnd }) ∧
  (∀ w : InstrWord, w ≠ 0 → decodeWord w ≠ .instr .zeroWord) ∧
  (∀ s : State, s.status = .running → s.pc = 0 → 3 ≤ s.capacity → (∀ a, s.mem.read a = 0) →
    step s = .next { s with status := .halted .normalEnd })

/-- R132: `popcount8` is the sum of the eight bits, 0 to 8, with the values the rule lists. -/
def Obligations.PopcountIsTheBitSum : Prop :=
  (∀ v : Byte, popcount8 v = ((List.range 8).map fun k => v.toNat / 2 ^ k % 2).sum ∧ popcount8 v ≤ 8) ∧
  popcount8 0 = 0 ∧ popcount8 1 = 1 ∧ popcount8 0x22 = 2 ∧ popcount8 0x39 = 4 ∧ popcount8 0x80 = 1 ∧
  popcount8 0xAA = 4 ∧ popcount8 0xC8 = 3 ∧ popcount8 0xFF = 8

/-- The effective address of STORE and POPCNT is the exact sum of base and operand, never more than 262142, which it reaches
(the spec's decision D8, log 8). -/
def Obligations.EffectiveAddressNeverWraps : Prop :=
  (∀ (base : Entry) (v : Operand),
    effectiveAddress base v = base.toNat + v.toNat ∧ effectiveAddress base v ≤ 262142) ∧
  effectiveAddress 131071 131071 = 262142

/-! Where the instructions halt the core (60_exceptions.md R140 to R149). -/

/-- LOAD outside memory halts with OutOfBounds and pushes nothing (the payload and `pc` by the spec's decisions D5 and D20,
log 5). -/
def Obligations.LoadOutOfBoundsHalts : Prop :=
  ∀ (v : Operand) (s : State), s.capacity ≤ v.toNat →
    exec (.load v) s = .next { s with pc := s.pc + 3, status := .halted (.outOfBounds v.toNat s.pc) }

/-- STORE with fewer than two entries halts with StackUnderflow, whatever the address, and the stack and memory stay; with
two entries and an address outside, the exact unreduced sum, it halts with OutOfBounds after both pops, and memory stays
(the spec's decisions D5, D7, D8, D14, D20, logs 5, 7 and 8). -/
def Obligations.StoreHaltsOnUnderflowThenBounds : Prop :=
  (∀ (v : Operand) (s : State), s.depth < 2 →
    exec (.store v) s = .next { s with pc := s.pc + 3, status := .halted (.stackUnderflow s.pc) }) ∧
  (∀ (v : Operand) (s : State) (base value : Entry) (rest : List Entry),
    s.stack = base :: value :: rest → s.capacity ≤ base.toNat + v.toNat →
    exec (.store v) s = .next { s with
      pc := s.pc + 3, stack := rest, status := .halted (.outOfBounds (base.toNat + v.toNat) s.pc) })

/-- POPCNT on an empty stack halts with StackUnderflow; with an address outside, the exact unreduced sum, it halts with
OutOfBounds after the pop and pushes nothing (the spec's decisions D5, D7, D8, D14, D20, logs 5, 7 and 8). -/
def Obligations.PopcntHaltsOnUnderflowThenBounds : Prop :=
  (∀ (v : Operand) (s : State), s.depth < 1 →
    exec (.popcnt v) s = .next { s with pc := s.pc + 3, status := .halted (.stackUnderflow s.pc) }) ∧
  (∀ (v : Operand) (s : State) (base : Entry) (rest : List Entry),
    s.stack = base :: rest → s.capacity ≤ base.toNat + v.toNat →
    exec (.popcnt v) s = .next { s with
      pc := s.pc + 3, stack := rest, status := .halted (.outOfBounds (base.toNat + v.toNat) s.pc) })

/-- A word that is not zero and whose opcode is none of the four halts the core with UndefinedInstruction, with `pc`
advanced and nothing else changed (the spec's decisions D5 and D6, logs 5 and 6). -/
def Obligations.UndefinedWordHalts : Prop :=
  ∀ (s : State) (w : InstrWord), s.status = .running → s.fetchWord s.pc = some w → w ≠ 0 →
    opcodeField w ∉ definedOpcodes →
    step s = .next { s with
      pc := s.pc + 3, status := .halted (.undefinedInstruction (opcodeField w) s.pc) }

/-! Frames. -/

/-- The frame of the instructions that store nothing, PUSH, LOAD, POPCNT and the sentinel: the configuration and every cell
stay; of the stack only the pushed entry and the popped base change; the run state stays unless the instruction halts. That a
faulting LOAD leaves the stack and a faulting POPCNT takes at most the top entry is the spec's decision D7 (log 7). -/
def Obligations.NonStoringInstructionsFrame : Prop :=
  (∀ (v : Operand) (s t : State), exec (.push v) s = .next t →
    t.config = s.config ∧ (∀ a, t.memRead a = s.memRead a) ∧ t.stack.tail = s.stack ∧ t.status = s.status) ∧
  (∀ (v : Operand) (s t : State), exec (.load v) s = .next t →
    t.config = s.config ∧ (∀ a, t.memRead a = s.memRead a) ∧
    ((t.stack.tail = s.stack ∧ t.status = s.status) ∨
      (t.stack = s.stack ∧ s.capacity ≤ v.toNat ∧ ∃ r, t.status = .halted r ∧ r.isFault = true))) ∧
  (∀ (v : Operand) (s t : State), exec (.popcnt v) s = .next t →
    t.config = s.config ∧ (∀ a, t.memRead a = s.memRead a) ∧
    ((t.stack.tail = s.stack.tail ∧ t.depth = s.depth ∧ t.status = s.status) ∨
      (t.stack = s.stack.tail ∧ ∃ r, t.status = .halted r ∧ r.isFault = true))) ∧
  (∀ (s t : State), exec .zeroWord s = .next t →
    t.config = s.config ∧ (∀ a, t.memRead a = s.memRead a) ∧ t.stack = s.stack ∧ t.pc = s.pc)

/-- The frame of STORE: whatever two entries it pops, every cell but the one at their effective address reads as before, and
the entries beneath stay; with fewer than two entries, or an address outside, every cell reads as before; the configuration
stays, and the run state stays unless the instruction faults. The stack after a fault (kept on underflow, both entries gone
when the address is outside) is the spec's decision D7 (log 7), the unreduced address its decision D8 (log 8). -/
def Obligations.StoreFrame : Prop :=
  ∀ (v : Operand) (s t : State), exec (.store v) s = .next t →
    t.config = s.config ∧
    (∀ base value rest, s.stack = base :: value :: rest →
      t.stack = rest ∧ (∀ a, a ≠ effectiveAddress base v → t.memRead a = s.memRead a) ∧
      (s.capacity ≤ effectiveAddress base v → ∀ a, t.memRead a = s.memRead a) ∧
      (effectiveAddress base v < s.capacity → t.status = s.status)) ∧
    (s.depth < 2 → t.stack = s.stack ∧ ∀ a, t.memRead a = s.memRead a) ∧
    (t.status = s.status ∨ ∃ r, t.status = .halted r ∧ r.isFault = true)

/-- R22: no instruction reads or changes an entry beneath the ones it takes: with more entries at the bottom it does the
same, and they stay. -/
def Obligations.EntriesBeneathAreUntouched : Prop :=
  ∀ (i : Instr) (s : State) (bottom : List Entry), entriesTaken i ≤ s.depth →
    ∃ t, exec i s = .next t ∧
      exec i { s with stack := s.stack ++ bottom } = .next { t with stack := t.stack ++ bottom }

/-! The cycle (40_cycle_and_dispatch.md). -/

/-- R100, R106: a running core whose three cells at `pc` decode to an instruction does exactly that instruction's meaning;
the step adds nothing around it (the advance of `pc` is in the meaning, log 15). -/
def Obligations.StepRunsTheDecodedInstruction : Prop :=
  ∀ (s : State) (i : Instr), s.status = .running → s.pc + 2 < s.capacity →
    decodeBytes [s.mem.read s.pc, s.mem.read (s.pc + 1), s.mem.read (s.pc + 2)] = some (.instr i, []) →
    step s = exec i s

/-- R101: where fewer than three cells remain at `pc`, that is where the fetch is Incomplete, and only there, a running core
halts with EndOfMemory, and nothing else changes; a machine of fewer than three cells does so in its first cycle. -/
def Obligations.EndOfMemoryTestComesFirst : Prop :=
  (∀ s : State, s.status = .running → s.pc + 2 ≥ s.capacity →
    step s = .next { s with status := .halted .endOfMemory }) ∧
  (∀ s t : State, s.status = .running → step s = .next t → t.status = .halted .endOfMemory →
    s.pc + 2 ≥ s.capacity) ∧
  (∀ s : State, s.fetchWord s.pc = none ↔ s.pc + 2 ≥ s.capacity) ∧
  (∀ config : Config, config.capacity < 3 →
    step (State.resetWith config) = .next { State.resetWith config with status := .halted .endOfMemory })

/-- R147: the order of the tests within a cycle. Each condition decides the outcome whenever the ones before it do not
hold, whatever the ones after it say. The last clause compares the unreduced effective address (the spec's decision D8, log
8); that each halt is a next state is log 14. -/
def Obligations.TestsAreMadeInOrder : Prop :=
  (∀ (s : State) (r : HaltReason), s.status = .halted r → step s = .next s) ∧
  (∀ s : State, s.status = .running → s.capacity ≤ s.pc + 2 →
    ∃ t, step s = .next t ∧ t.status = .halted .endOfMemory) ∧
  (∀ s : State, s.status = .running → s.fetchWord s.pc = some 0 →
    ∃ t, step s = .next t ∧ t.status = .halted .normalEnd) ∧
  (∀ (s : State) (w : InstrWord), s.status = .running → s.fetchWord s.pc = some w → w ≠ 0 →
    opcodeField w ∉ definedOpcodes →
    ∃ t fp, step s = .next t ∧ t.status = .halted (.undefinedInstruction (opcodeField w) fp)) ∧
  (∀ (s : State) (w : InstrWord) (i : Instr), s.status = .running → s.fetchWord s.pc = some w →
    decodeWord w = .instr i → s.depth < entriesTaken i →
    ∃ t fp, step s = .next t ∧ t.status = .halted (.stackUnderflow fp)) ∧
  (∀ (s : State) (w : InstrWord) (v : Operand), s.status = .running → s.fetchWord s.pc = some w →
    (decodeWord w = .instr (.load v) ∧ s.capacity ≤ absoluteAddress v ∨
      (decodeWord w = .instr (.store v) ∧ 2 ≤ s.depth ∨ decodeWord w = .instr (.popcnt v) ∧ 1 ≤ s.depth) ∧
        ∃ base, s.stack.head? = some base ∧ s.capacity ≤ effectiveAddress base v) →
    ∃ t a fp, step s = .next t ∧ t.status = .halted (.outOfBounds a fp))

/-- `pc` starts at 0; a cycle leaves it or adds 3, and leaves it exactly when the core was halted, or the cycle ends at the
end-of-memory test or on the sentinel (R24). That every step answers a next state, a halting one too, is the model's choice
(log 14); that a faulting or undefined cycle has advanced `pc` is the spec's decisions D5 and D6 (logs 5 and 6). -/
def Obligations.PcStaysOrAdvancesByThree : Prop :=
  (∀ config : Config, (State.resetWith config).pc = 0) ∧
  (∀ s : State, ∃ t, step s = .next t ∧
    ((∃ r, s.status = .halted r) ∨ s.capacity ≤ s.pc + 2 ∨ s.fetchWord s.pc = some 0 → t.pc = s.pc) ∧
    (¬((∃ r, s.status = .halted r) ∨ s.capacity ≤ s.pc + 2 ∨ s.fetchWord s.pc = some 0) → t.pc = s.pc + 3))

/-- A STORE runs as it was fetched, whichever cell it writes, its own three included (R52 (b)), and in the state right after
it every fetch, so that of the very next cycle, reads the stored byte at the effective address and the old cells elsewhere
(R52 (a)). The byte stored is the spec's decision D2 (log 3), the unreduced address its decision D8 (log 8). -/
def Obligations.StoreIsSeenByTheNextFetch : Prop :=
  ∀ (s : State) (w : InstrWord) (v : Operand) (base value : Entry) (rest : List Entry),
    s.status = .running → s.fetchWord s.pc = some w → decodeWord w = .instr (.store v) →
    s.stack = base :: value :: rest → effectiveAddress base v < s.capacity →
    ∃ t, step s = .next t ∧ t.status = .running ∧ t.pc = s.pc + 3 ∧
      ∀ a, a + 2 < s.capacity →
        t.fetchWord a = some (wordOfBytes
          (if a = effectiveAddress base v then byteOfEntry value else s.mem.read a)
          (if a + 1 = effectiveAddress base v then byteOfEntry value else s.mem.read (a + 1))
          (if a + 2 = effectiveAddress base v then byteOfEntry value else s.mem.read (a + 2)))

/-- R52 (a) for all later cycles, and (c): after a STORE, as long as no cycle stores to the same cell again, the cell holds
the stored byte and every fetch that reads the cell finds that byte at its place in the word, after any number of cycles;
and `pc`, where the core fetches, never falls, so that a cell below it is not fetched again. The byte stored is the spec's
decision D2 (log 3), the unreduced address its decision D8 (log 8). -/
def Obligations.StoredByteIsFetchedUntilStoredOver : Prop :=
  ∀ (s t : State) (w : InstrWord) (v : Operand) (base value : Entry) (rest : List Entry) (n : Nat),
    s.status = .running → s.fetchWord s.pc = some w → decodeWord w = .instr (.store v) →
    s.stack = base :: value :: rest → effectiveAddress base v < s.capacity → step s = .next t →
    (∀ k, k < n → ¬(State.runFor k t).StoresTo (effectiveAddress base v)) →
    (State.runFor n t).memRead (effectiveAddress base v) = some (byteOfEntry value) ∧
    t.pc ≤ (State.runFor n t).pc ∧
    ∀ a k, k < 3 → a + 2 < s.capacity → a + k = effectiveAddress base v →
      ∃ w', (State.runFor n t).fetchWord a = some w' ∧ w'.extractLsb' (8 * k) 8 = byteOfEntry value

/-- R21, R130: within a run only STORE changes memory, and each changes at most one cell: where a step changes the cell at
`a`, the word at `pc` is a STORE, `a` is its effective address, and the core goes on running. That the cell then holds the
value's low 8 bits is the spec's decision D2 (log 3), the unreduced address its decision D8 (log 8). -/
def Obligations.OnlyStoreChangesMemory : Prop :=
  ∀ (s t : State) (a : Nat), step s = .next t → t.memRead a ≠ s.memRead a →
    s.status = .running ∧ t.status = .running ∧
    ∃ w v base value rest, s.fetchWord s.pc = some w ∧ decodeWord w = .instr (.store v) ∧
      s.stack = base :: value :: rest ∧ a = effectiveAddress base v ∧ a < s.capacity ∧
      t.memRead a = some (byteOfEntry value)

/-- R140 to R144: the recorded reason is the one whose cause holds, with its payload (the payloads by the spec's decisions
D5, D14, D20, log 5; the unreduced effective address by its decision D8, log 8). -/
def Obligations.HaltReasonsHaveTheirCauses : Prop :=
  ∀ (s t : State) (r : HaltReason), s.status = .running → step s = .next t → t.status = .halted r →
    match r with
    | .endOfMemory => s.capacity ≤ s.pc + 2
    | .normalEnd => s.fetchWord s.pc = some 0
    | .undefinedInstruction op fp =>
        fp = s.pc ∧ op ∉ definedOpcodes ∧ ∃ w, s.fetchWord s.pc = some w ∧ w ≠ 0 ∧ opcodeField w = op
    | .outOfBounds a fp =>
        fp = s.pc ∧ s.capacity ≤ a ∧ ∃ w v, s.fetchWord s.pc = some w ∧
          (decodeWord w = .instr (.load v) ∧ a = absoluteAddress v ∨
            (decodeWord w = .instr (.store v) ∧ 2 ≤ s.depth ∨ decodeWord w = .instr (.popcnt v) ∧ 1 ≤ s.depth) ∧
              ∃ base, s.stack.head? = some base ∧ a = effectiveAddress base v)
    | .stackUnderflow fp =>
        fp = s.pc ∧ ∃ w i, s.fetchWord s.pc = some w ∧ decodeWord w = .instr i ∧ s.depth < entriesTaken i

/-- R145, R149: what a halting cycle leaves. Memory and the configuration stay; a normal end leaves `pc` and the stack; a
fault leaves `pc` three on, and the stack as before, but for OutOfBounds of STORE and POPCNT, which have popped what they
take (the spec's decisions D5, D6 and D7, logs 5 to 7). -/
def Obligations.HaltingCycleLeavesMemory : Prop :=
  ∀ (s t : State) (r : HaltReason), s.status = .running → step s = .next t → t.status = .halted r →
    t.config = s.config ∧ t.mem = s.mem ∧
    (r.isFault = false → t.pc = s.pc ∧ t.stack = s.stack) ∧
    (r.isFault = true → t.pc = s.pc + 3) ∧
    (∀ op fp, r = .undefinedInstruction op fp → t.stack = s.stack) ∧
    (∀ fp, r = .stackUnderflow fp → t.stack = s.stack) ∧
    (∀ a fp w i, r = .outOfBounds a fp → s.fetchWord s.pc = some w → decodeWord w = .instr i →
      t.stack = s.stack.drop (entriesTaken i))

/-! Reset, the invariant, the run and the driver (10_state.md, 70_reset_and_hazards.md). -/

/-- R33, R170: the state after reset, for every capacity; that every cell is 0 is the spec's decision D16 (log 11). -/
def Obligations.ResetLeavesTheResetState : Prop :=
  ∀ (s : State) (config : Config),
    (s.perform (.reset config)).1 = State.resetWith config ∧
    (State.resetWith config).status = .running ∧ (State.resetWith config).pc = 0 ∧
    (State.resetWith config).depth = 0 ∧ (State.resetWith config).capacity = config.capacity ∧
    (∀ a, a < config.capacity → (State.resetWith config).memRead a = some 0)

/-- The invariant holds after reset, for every capacity. -/
def Obligations.InvHoldsAfterReset : Prop :=
  (∀ config : Config, (State.resetWith config).Inv) ∧ State.reset.Inv

/-- The invariant (canonical memory within CAPACITY, `pc` a multiple of 3 and at most CAPACITY, depth at most `pc / 3`, a
sound halt reason: R21, R23, R25, R140) is kept by every step. The canonical form is the model's own; the clauses on a halt
reason's payload rest on the spec's decisions D5, D6, D8 and D20 (logs 5, 6 and 8). -/
def Obligations.StepKeepsInv : Prop :=
  ∀ s t : State, s.Inv → step s = .next t → t.Inv

/-- The invariant is kept by every operation of the driver, so it holds whatever the driver does from a reset on. When a load
is allowed and what a failed one leaves is the spec's decision D9 (log 9); the payload clauses are as in StepKeepsInv. -/
def Obligations.DriverKeepsInv : Prop :=
  ∀ (s : State) (op : DriverOp), s.Inv → (s.perform op).1.Inv

/-- R7, R23: any STACK_DEPTH of at least `floor(CAPACITY / 3)` is enough: however many steps are taken, the stack never
holds more entries (log 4). -/
def Obligations.StackNeverOverflows : Prop :=
  ∀ (s : State) (stackDepth n : Nat), s.Inv → s.capacity / 3 ≤ stackDepth →
    (State.runFor n s).depth ≤ stackDepth

/-- R109: from every state, reachable or not, `run` halts, having dispatched at most `floor(CAPACITY / 3)` cycles, which
`pc / 3` counts (R25 (d); the spec's decision D17, log 23). The model's `run` takes at most one step more than that (log 17). -/
def Obligations.RunAlwaysHalts : Prop :=
  ∀ s : State, (∃ r, s.run.status = .halted r) ∧ s.pc ≤ s.run.pc ∧
    s.run.pc ≤ s.pc + 3 * (s.capacity / 3) ∧ (s.run.pc - s.pc) % 3 = 0 ∧
    s.run.cyclesExecuted ≤ s.cyclesExecuted + s.capacity / 3

/-- R108: `run` is `step` repeated until halted: any number of steps above `floor(CAPACITY / 3)` leads to the state `run`
leads to, and `run` on a halted core is a no-op. It says that the model's bound on `run` (log 17) never cuts a run short. -/
def Obligations.RunIsStepRepeated : Prop :=
  (∀ (s : State) (n : Nat), s.capacity / 3 < n → Host.Core.run Sys2Proof.core n s = .next s.run) ∧
  (∀ (s : State) (r : HaltReason), s.status = .halted r → s.run = s ∧ (s.perform .run).2 = .halted r)

/-- R34, R150, R171: on a halted core every operation of the driver but reset changes nothing at all, a load among them (the
spec's decision D19, log 12); reset leaves a running core. -/
def Obligations.OnlyResetLeavesHalted : Prop :=
  (∀ (s : State) (r : HaltReason) (op : DriverOp), s.status = .halted r → (∀ config, op ≠ .reset config) →
    (s.perform op).1 = s) ∧
  (∀ (s : State) (config : Config), (s.perform (.reset config)).1.status = .running)

/-- R55: load_program in the reset state copies bytes that fit from address 0 and changes nothing else; bytes that do not
fit are refused with ProgramTooLarge and change nothing; at any other time there is no load (the spec's decision D9, log 9). -/
def Obligations.LoadProgramCopiesOrFails : Prop :=
  (∀ (s : State) (bytes : List Byte), s.status = .running → s.pc = 0 → bytes.length ≤ s.capacity →
    ∃ t, s.perform (.loadProgram bytes) = (t, .done) ∧
      t.pc = s.pc ∧ t.stack = s.stack ∧ t.status = s.status ∧ t.config = s.config ∧
      (∀ (k : Nat) (hk : k < bytes.length), t.memRead k = some bytes[k]) ∧
      (∀ a, bytes.length ≤ a → t.memRead a = s.memRead a)) ∧
  (∀ (s : State) (bytes : List Byte), s.status = .running → s.pc = 0 → s.capacity < bytes.length →
    s.perform (.loadProgram bytes) = (s, .programTooLarge)) ∧
  (∀ (s : State) (bytes : List Byte), s.status ≠ .running ∨ s.pc ≠ 0 →
    s.perform (.loadProgram bytes) = (s, .refused .loadOutsideReset))

/-- R56: memory_snapshot lists the cells of its half-open range in ascending order and changes nothing, in every run state;
a range outside memory has no meaning (the spec's decision D10, log 10). -/
def Obligations.SnapshotListsTheCells : Prop :=
  (∀ (s : State) (start stop : Nat), start ≤ stop → stop ≤ s.capacity →
    ∃ pairs, s.perform (.memorySnapshot start stop) = (s, .cells pairs) ∧ pairs.length = stop - start ∧
      ∀ (k : Nat) (hk : k < pairs.length), pairs[k].1 = start + k ∧ s.memRead (start + k) = some pairs[k].2) ∧
  (∀ (s : State) (start stop : Nat), stop < start ∨ s.capacity < stop →
    s.perform (.memorySnapshot start stop) = (s, .refused .snapshotOutOfRange))
end

