-- ==== Sys2Proof/Laws/Encoding.lean ====
section
/-! SUPPORT. The small lemmas of the bit fields, the byte order and the opcode map. -/

namespace Sys2Proof

/-! Fields of an encoded word (R71, R80). -/

@[simp] theorem opcodeField_encodeFields (m : Mnemonic) (v : Operand) :
    opcodeField (encodeFields m v) = opcodeOf m := by
  unfold opcodeField encodeFields
  ext i hi
  have h1 : i < 24 := by omega
  simp [h1, show i < 7 from hi]

@[simp] theorem operandField_encodeFields (m : Mnemonic) (v : Operand) :
    operandField (encodeFields m v) = v := by
  unfold operandField encodeFields
  ext i hi
  have h1 : 7 + i < 24 := by omega
  simp [h1, BitVec.getLsbD_eq_getElem hi]

/-- A word is put together again from its two fields. -/
theorem word_of_fields (w : InstrWord) :
    (opcodeField w).setWidth 24 ||| ((operandField w).setWidth 24 <<< 7) = w := by
  unfold opcodeField operandField
  ext i hi
  by_cases h : i < 7
  · simp [h, hi]
  · have h1 : 7 + (i - 7) = i := by omega
    simp [h, hi, h1, show i - 7 < 17 by omega]

/-- No mnemonic has opcode 0 (R76). -/
theorem opcodeOf_ne_zero (m : Mnemonic) : opcodeOf m ≠ 0 := by cases m <;> decide

/-- No instruction of the four encodes to the zero sentinel (R76). -/
theorem encodeFields_ne_zero (m : Mnemonic) (v : Operand) : encodeFields m v ≠ 0 := by
  intro h
  have := opcodeField_encodeFields m v
  rw [h] at this
  exact opcodeOf_ne_zero m (this.symm.trans (by decide))

/-- The word of a mnemonic and an operand as a number: opcode below, operand above bit 7 (R80). -/
theorem encodeFields_toNat (m : Mnemonic) (v : Operand) :
    (encodeFields m v).toNat = (opcodeOf m).toNat + 128 * v.toNat := by
  have h1 := congrArg BitVec.toNat (opcodeField_encodeFields m v)
  have h2 := congrArg BitVec.toNat (operandField_encodeFields m v)
  simp only [opcodeField, operandField, BitVec.extractLsb'_toNat, Nat.shiftRight_eq_div_pow] at h1 h2
  have := (encodeFields m v).isLt
  omega

/-- The range check of R81. -/
theorem Command.wellFormed_iff {c : Command} : c.wellFormed = true ↔ 0 ≤ c.operand ∧ c.operand ≤ 131071 := by
  have h : (operandMax : Int) = 131071 := rfl
  simp [Command.wellFormed, h]

/-! The byte order (R44, R72). -/

theorem wordBytes_length (w : InstrWord) : (wordBytes w).length = 3 := rfl

/-- A word is put together again from its three bytes. -/
@[simp] theorem wordOfBytes_extract (w : InstrWord) :
    wordOfBytes (w.extractLsb' 0 8) (w.extractLsb' 8 8) (w.extractLsb' 16 8) = w := by
  unfold wordOfBytes
  ext i hi
  by_cases h : i < 8
  · simp [h, hi, show i < 16 by omega]
  · by_cases h' : i < 16
    · have h1 : 8 + (i - 8) = i := by omega
      simp [h, h', hi, h1, show i - 8 < 8 by omega]
    · have h1 : 16 + (i - 16) = i := by omega
      simp [h, h', hi, h1, show i - 16 < 8 by omega, show ¬ i - 8 < 8 by omega]

/-- The reassembled word as a number (R43, R44). -/
theorem wordOfBytes_toNat (b0 b1 b2 : Byte) :
    (wordOfBytes b0 b1 b2).toNat = b0.toNat + 256 * b1.toNat + 65536 * b2.toNat := by
  have h0 := b0.isLt
  have h1 := b1.isLt
  have h2 := b2.isLt
  have t0 : (b0.setWidth 24).toNat = b0.toNat := by
    rw [BitVec.toNat_setWidth]; exact Nat.mod_eq_of_lt (by omega)
  have t1 : (b1.setWidth 24 <<< 8).toNat = b1.toNat * 256 := by
    rw [BitVec.toNat_shiftLeft, BitVec.toNat_setWidth, Nat.shiftLeft_eq, Nat.mod_mul_mod]
    exact Nat.mod_eq_of_lt (by omega)
  have t2 : (b2.setWidth 24 <<< 16).toNat = b2.toNat * 65536 := by
    rw [BitVec.toNat_shiftLeft, BitVec.toNat_setWidth, Nat.shiftLeft_eq, Nat.mod_mul_mod]
    exact Nat.mod_eq_of_lt (by omega)
  have e1 := Nat.shiftLeft_add_eq_or_of_lt (i := 16) (b := b1.toNat * 256) (by omega) b2.toNat
  have e2 := Nat.shiftLeft_add_eq_or_of_lt (i := 8) (b := b0.toNat) (by omega) (b1.toNat + 256 * b2.toNat)
  simp only [Nat.shiftLeft_eq, Nat.reducePow] at e1 e2
  have e3 : b2.toNat * 65536 + b1.toNat * 256 = (b1.toNat + 256 * b2.toNat) * 256 := by ring
  rw [wordOfBytes, BitVec.or_assoc, BitVec.toNat_or, BitVec.toNat_or, t0, t1, t2, Nat.or_comm (b1.toNat * 256), ← e1,
    e3, Nat.or_comm, ← e2]
  ring

/-! The opcode map (R75, R79). -/

@[simp] theorem mnemonicOfOpcode_opcodeOf (m : Mnemonic) : mnemonicOfOpcode (opcodeOf m) = some m := by
  cases m <;> decide

/-- The inverse map names a mnemonic only for its own opcode. -/
theorem mnemonicOfOpcode_eq_some {op : Opcode} {m : Mnemonic} (h : mnemonicOfOpcode op = some m) :
    opcodeOf m = op := by
  unfold mnemonicOfOpcode at h
  obtain ⟨r, hr, rfl⟩ := Option.map_eq_some_iff.1 h
  have hop := List.find?_some hr
  have hmem := List.mem_of_find?_eq_some hr
  simp only [descriptorTable, List.mem_cons, List.not_mem_nil, or_false] at hmem
  rcases hmem with rfl | rfl | rfl | rfl <;> exact beq_iff_eq.1 hop

/-- The inverse map answers nothing exactly on the 124 undefined opcodes (R77). -/
theorem mnemonicOfOpcode_eq_none {op : Opcode} :
    mnemonicOfOpcode op = none ↔ op ≠ 14 ∧ op ≠ 33 ∧ op ≠ 34 ∧ op ≠ 80 := by
  simp only [mnemonicOfOpcode, descriptorTable, Option.map_eq_none_iff, List.find?_eq_none, List.mem_cons,
    List.not_mem_nil, or_false, forall_eq_or_imp, forall_eq, specOf, beq_iff_eq, ne_eq]
  constructor
  · rintro ⟨h1, h2, h3, h4⟩
    exact ⟨fun h => h4 h.symm, fun h => h2 h.symm, fun h => h1 h.symm, fun h => h3 h.symm⟩
  · rintro ⟨h1, h2, h3, h4⟩
    exact ⟨fun h => h3 h.symm, fun h => h2 h.symm, fun h => h4 h.symm, fun h => h1 h.symm⟩

/-! Decode, by cases (R78). -/

theorem decodeWord_zero : decodeWord 0 = .instr .zeroWord := rfl

/-- A word that is not zero and whose opcode is a mnemonic's decodes to that instruction with its operand field. -/
theorem decodeWord_of_mnemonic {w : InstrWord} {m : Mnemonic} (hw : w ≠ 0)
    (h : mnemonicOfOpcode (opcodeField w) = some m) :
    decodeWord w = .instr (Instr.ofMnemonic m (operandField w)) := by
  rw [decodeWord, if_neg hw, h]

theorem decodeWord_of_undefined {w : InstrWord} (hw : w ≠ 0) (h : mnemonicOfOpcode (opcodeField w) = none) :
    decodeWord w = .undefinedOpcode (opcodeField w) := by
  rw [decodeWord, if_neg hw, h]

/-- What an answer of the decoder says of the word: it is the sentinel, one of the four instructions, or undefined. -/
theorem decodeWord_cases (w : InstrWord) :
    (w = 0 ∧ decodeWord w = .instr .zeroWord) ∨
    (w ≠ 0 ∧ ∃ m, opcodeField w = opcodeOf m ∧ decodeWord w = .instr (Instr.ofMnemonic m (operandField w))) ∨
    (w ≠ 0 ∧ mnemonicOfOpcode (opcodeField w) = none ∧ decodeWord w = .undefinedOpcode (opcodeField w)) := by
  by_cases hw : w = 0
  · exact .inl ⟨hw, by rw [hw, decodeWord_zero]⟩
  · cases h : mnemonicOfOpcode (opcodeField w) with
    | none => exact .inr (.inr ⟨hw, rfl, decodeWord_of_undefined hw h⟩)
    | some m => exact .inr (.inl ⟨hw, m, (mnemonicOfOpcode_eq_some h).symm, decodeWord_of_mnemonic hw h⟩)

theorem encode_ofMnemonic (m : Mnemonic) (v : Operand) : encode (Instr.ofMnemonic m v) = encodeFields m v := by
  cases m <;> rfl

end Sys2Proof
end

