-- ==== Sys2Proof/Laws/Memory.lean ====
section
/-! SUPPORT. The laws of the cells: read after write, and that every memory operation keeps the canonical form. -/

namespace Sys2Proof.Machine

@[simp] theorem Memory.read_nil (a : Nat) : Memory.read [] a = 0 := rfl

/-! Read after write. -/

theorem Memory.mem_erase {m : Memory} {a : Nat} {c : Host.Cell} :
    c ∈ m.erase a ↔ c ∈ m ∧ c.1 ≠ a := by
  induction m with
  | nil => simp [Memory.erase]
  | cons d rest ih =>
    obtain ⟨k, v⟩ := d
    by_cases hk : a = k
    · subst hk
      simp only [Memory.erase, if_true, ih, List.mem_cons]
      constructor
      · exact fun h => ⟨.inr h.1, h.2⟩
      · rintro ⟨rfl | h, hne⟩
        · exact absurd rfl hne
        · exact ⟨h, hne⟩
    · simp only [Memory.erase, hk, if_false, List.mem_cons, ih]
      constructor
      · rintro (rfl | h)
        · exact ⟨.inl rfl, fun h => hk h.symm⟩
        · exact ⟨.inr h.1, h.2⟩
      · rintro ⟨rfl | h, hne⟩
        · exact .inl rfl
        · exact .inr ⟨h, hne⟩

theorem Memory.read_erase (m : Memory) (a b : Nat) :
    (m.erase a).read b = if b = a then 0 else m.read b := by
  induction m with
  | nil => simp [Memory.erase]
  | cons c rest ih =>
    obtain ⟨k, v⟩ := c
    by_cases hk : a = k <;> by_cases hb : b = k <;> grind [Memory.erase, Memory.read]

theorem Memory.read_insert {m : Memory} {a : Nat} (hm : ∀ c ∈ m, c.1 ≠ a) (v : Byte) (b : Nat) :
    (m.insert a v).read b = if b = a then v else m.read b := by
  induction m with
  | nil => simp [Memory.insert, Memory.read]
  | cons c rest ih =>
    obtain ⟨k, w⟩ := c
    have hk : k ≠ a := hm (k, w) (by simp)
    have ih' := ih fun c hc => hm c (by simp [hc])
    by_cases ha : a < k <;> by_cases hb : b = k <;> grind [Memory.insert, Memory.read]

/-- Read after write: the written cell gives the value, every other cell is as before (R47). -/
theorem Memory.read_write (m : Memory) (a : Nat) (v : Byte) (b : Nat) :
    (m.write a v).read b = if b = a then v else m.read b := by
  unfold Memory.write
  split
  · next h => rw [Memory.read_erase, h]
  · rw [Memory.read_insert fun c hc => (Memory.mem_erase.1 hc).2, Memory.read_erase]
    split <;> rfl

@[simp] theorem Memory.read_write_same (m : Memory) (a : Nat) (v : Byte) : (m.write a v).read a = v := by
  simp [Memory.read_write]

theorem Memory.read_write_other (m : Memory) {a b : Nat} (h : b ≠ a) (v : Byte) :
    (m.write a v).read b = m.read b := by
  simp [Memory.read_write, h]

/-- A run of bytes written from `a` on: byte `b - a` inside it, the old cell outside. -/
theorem Memory.read_writeBytes (bs : List Byte) (m : Memory) (a b : Nat) :
    (m.writeBytes a bs).read b =
      if h : a ≤ b ∧ b - a < bs.length then bs[b - a]'h.2 else m.read b := by
  induction bs generalizing m a with
  | nil => simp [Memory.writeBytes]
  | cons x xs ih =>
    rw [Memory.writeBytes, ih, Memory.read_write]
    by_cases hb : b = a
    · subst hb; simp
    · by_cases hlt : a + 1 ≤ b
      · obtain ⟨d, rfl⟩ : ∃ d, b = a + 1 + d := ⟨b - (a + 1), by omega⟩
        have e1 : a + 1 + d - a = d + 1 := by omega
        have e2 : a + 1 + d - (a + 1) = d := by omega
        simp only [e1, e2, List.length_cons, List.getElem_cons_succ]
        by_cases hd : d < xs.length
        · have h1 : a ≤ a + 1 + d := by omega
          simp [hd, h1]
        · simp [hd, hb]
      · have h1 : ¬ a ≤ b := by omega
        simp [hlt, h1, hb]

/-! The canonical form. -/

theorem Memory.wfFrom_mono {m : Memory} {lo lo' : Nat} (h : lo' ≤ lo) (hm : m.wfFrom lo = true) :
    m.wfFrom lo' = true := by
  cases m with
  | nil => rfl
  | cons c rest =>
    simp only [Memory.wfFrom, Bool.and_eq_true, decide_eq_true_eq] at hm ⊢
    exact ⟨⟨h.trans hm.1.1, hm.1.2⟩, hm.2⟩

theorem Memory.wfFrom_erase {m : Memory} {lo : Nat} (a : Nat) (hm : m.wfFrom lo = true) :
    (m.erase a).wfFrom lo = true := by
  induction m generalizing lo with
  | nil => rfl
  | cons c rest ih =>
    simp only [Memory.wfFrom, Bool.and_eq_true, decide_eq_true_eq] at hm
    unfold Memory.erase
    split
    · exact Memory.wfFrom_mono (by omega) (ih hm.2)
    · simp only [Memory.wfFrom, Bool.and_eq_true, decide_eq_true_eq]
      exact ⟨hm.1, ih hm.2⟩

theorem Memory.wfFrom_insert {m : Memory} {lo a : Nat} {v : Byte} (hlo : lo ≤ a) (hv : v ≠ 0)
    (hne : ∀ c ∈ m, c.1 ≠ a) (hm : m.wfFrom lo = true) : (m.insert a v).wfFrom lo = true := by
  induction m generalizing lo with
  | nil =>
    simp only [Memory.insert, Memory.wfFrom, Bool.and_eq_true, decide_eq_true_eq]
    exact ⟨⟨hlo, hv⟩, trivial⟩
  | cons c rest ih =>
    have hc : c.1 ≠ a := hne c (by simp)
    simp only [Memory.wfFrom, Bool.and_eq_true, decide_eq_true_eq] at hm
    unfold Memory.insert
    split
    · next h =>
      simp only [Memory.wfFrom, Bool.and_eq_true, decide_eq_true_eq]
      exact ⟨⟨hlo, hv⟩, ⟨⟨h, hm.1.2⟩, hm.2⟩⟩
    · simp only [Memory.wfFrom, Bool.and_eq_true, decide_eq_true_eq]
      exact ⟨hm.1, ih (by omega) (fun d hd => hne d (by simp [hd])) hm.2⟩

/-- A write keeps the canonical form. -/
theorem Memory.wf_write {m : Memory} (a : Nat) (v : Byte) (hm : m.wf = true) : (m.write a v).wf = true := by
  unfold Memory.write
  split
  · exact Memory.wfFrom_erase a hm
  · next h =>
    exact Memory.wfFrom_insert (Nat.zero_le a) h (fun c hc => (Memory.mem_erase.1 hc).2) (Memory.wfFrom_erase a hm)

theorem Memory.wf_writeBytes (bs : List Byte) {m : Memory} (a : Nat) (hm : m.wf = true) :
    (m.writeBytes a bs).wf = true := by
  induction bs generalizing m a with
  | nil => exact hm
  | cons x xs ih => exact ih (a + 1) (Memory.wf_write a x hm)

theorem Memory.mem_insert {m : Memory} {a : Nat} {v : Byte} {c : Host.Cell} (h : c ∈ m.insert a v) :
    c = (a, v) ∨ c ∈ m := by
  induction m with
  | nil => simpa [Memory.insert] using h
  | cons d rest ih =>
    unfold Memory.insert at h
    split at h
    · simpa using h
    · rcases List.mem_cons.1 h with rfl | h
      · simp
      · rcases ih h with h | h <;> simp [h]

/-- A write below `capacity` lists no cell at or above it. -/
theorem Memory.within_write {m : Memory} {n : Nat} {a : Nat} (v : Byte) (ha : a < n) (hm : m.within n = true) :
    (m.write a v).within n = true := by
  simp only [Memory.within, List.all_eq_true, decide_eq_true_eq] at hm ⊢
  intro c hc
  unfold Memory.write at hc
  split at hc
  · exact hm c (Memory.mem_erase.1 hc).1
  · rcases Memory.mem_insert hc with rfl | hc
    · exact ha
    · exact hm c (Memory.mem_erase.1 hc).1

theorem Memory.within_writeBytes (bs : List Byte) {m : Memory} {n : Nat} {a : Nat} (ha : a + bs.length ≤ n)
    (hm : m.within n = true) : (m.writeBytes a bs).within n = true := by
  induction bs generalizing m a with
  | nil => exact hm
  | cons x xs ih =>
    simp only [List.length_cons] at ha
    exact ih (by omega) (Memory.within_write x (by omega) hm)

/-- Canonical memories that read alike are equal data. -/
theorem Memory.read_eq_zero_of_lt {m : Memory} {lo a : Nat} (hm : m.wfFrom lo = true) (h : a < lo) :
    m.read a = 0 := by
  induction m generalizing lo with
  | nil => rfl
  | cons c rest ih =>
    simp only [Memory.wfFrom, Bool.and_eq_true, decide_eq_true_eq] at hm
    have hk : ¬ a = c.1 := by omega
    simp only [Memory.read, hk, if_false]
    exact ih hm.2 (by omega)

theorem Memory.ext_from {m n : Memory} {lo : Nat} (hm : m.wfFrom lo = true) (hn : n.wfFrom lo = true)
    (h : ∀ a, m.read a = n.read a) : m = n := by
  induction m generalizing n lo with
  | nil =>
    cases n with
    | nil => rfl
    | cons d rest =>
      simp only [Memory.wfFrom, Bool.and_eq_true, decide_eq_true_eq] at hn
      have := h d.1
      simp only [Memory.read, if_true] at this
      exact absurd this.symm hn.1.2
  | cons c rest ih =>
    obtain ⟨k, v⟩ := c
    simp only [Memory.wfFrom, Bool.and_eq_true, decide_eq_true_eq] at hm
    cases n with
    | nil =>
      have := h k
      simp only [Memory.read, if_true] at this
      exact absurd this hm.1.2
    | cons d rest' =>
      obtain ⟨k', v'⟩ := d
      simp only [Memory.wfFrom, Bool.and_eq_true, decide_eq_true_eq] at hn
      have hkk : k = k' := by
        rcases Nat.lt_trichotomy k k' with hlt | heq | hlt
        · have h1 := h k
          have h2 := Memory.read_eq_zero_of_lt hn.2 (show k < k' + 1 by omega)
          have h3 : ¬ k = k' := by omega
          simp only [Memory.read, if_true, h3, if_false, h2] at h1
          exact absurd h1 hm.1.2
        · exact heq
        · have h1 := h k'
          have h2 := Memory.read_eq_zero_of_lt hm.2 (show k' < k + 1 by omega)
          have h3 : ¬ k' = k := by omega
          simp only [Memory.read, if_true, h3, if_false, h2] at h1
          exact absurd h1.symm hn.1.2
      subst hkk
      have hv : v = v' := by simpa [Memory.read] using h k
      subst hv
      congr 1
      refine ih hm.2 hn.2 fun a => ?_
      by_cases ha : a = k
      · subst ha
        rw [Memory.read_eq_zero_of_lt hm.2 (Nat.lt_succ_self _), Memory.read_eq_zero_of_lt hn.2 (Nat.lt_succ_self _)]
      · simpa [Memory.read, ha] using h a

/-- Equal memories are equal data: two canonical memories that read alike at every address are the same list. -/
theorem Memory.ext_read {m n : Memory} (hm : m.wf = true) (hn : n.wf = true) (h : ∀ a, m.read a = n.read a) :
    m = n := Memory.ext_from hm hn h

end Sys2Proof.Machine
end

