-- ==== Sys2Proof/Laws/State.lean ====
section
/-! SUPPORT. One lemma per field per update of the state, so that no proof unfolds a record update. -/

namespace Sys2Proof.Machine

@[simp] theorem wordBytesCount_eq : wordBytesCount = 3 := rfl

/-! setMem -/
@[simp] theorem State.setMem_config (s : State) (m : Memory) : (s.setMem m).config = s.config := rfl
@[simp] theorem State.setMem_mem (s : State) (m : Memory) : (s.setMem m).mem = m := rfl
@[simp] theorem State.setMem_stack (s : State) (m : Memory) : (s.setMem m).stack = s.stack := rfl
@[simp] theorem State.setMem_pc (s : State) (m : Memory) : (s.setMem m).pc = s.pc := rfl
@[simp] theorem State.setMem_status (s : State) (m : Memory) : (s.setMem m).status = s.status := rfl
@[simp] theorem State.setMem_capacity (s : State) (m : Memory) : (s.setMem m).capacity = s.capacity := rfl

/-! setStack -/
@[simp] theorem State.setStack_config (s : State) (l : List Entry) : (s.setStack l).config = s.config := rfl
@[simp] theorem State.setStack_mem (s : State) (l : List Entry) : (s.setStack l).mem = s.mem := rfl
@[simp] theorem State.setStack_stack (s : State) (l : List Entry) : (s.setStack l).stack = l := rfl
@[simp] theorem State.setStack_pc (s : State) (l : List Entry) : (s.setStack l).pc = s.pc := rfl
@[simp] theorem State.setStack_status (s : State) (l : List Entry) : (s.setStack l).status = s.status := rfl
@[simp] theorem State.setStack_capacity (s : State) (l : List Entry) : (s.setStack l).capacity = s.capacity := rfl

/-! push -/
@[simp] theorem State.push_config (s : State) (v : Entry) : (s.push v).config = s.config := rfl
@[simp] theorem State.push_mem (s : State) (v : Entry) : (s.push v).mem = s.mem := rfl
@[simp] theorem State.push_stack (s : State) (v : Entry) : (s.push v).stack = v :: s.stack := rfl
@[simp] theorem State.push_pc (s : State) (v : Entry) : (s.push v).pc = s.pc := rfl
@[simp] theorem State.push_status (s : State) (v : Entry) : (s.push v).status = s.status := rfl

/-! advancePc -/
@[simp] theorem State.advancePc_config (s : State) : s.advancePc.config = s.config := rfl
@[simp] theorem State.advancePc_mem (s : State) : s.advancePc.mem = s.mem := rfl
@[simp] theorem State.advancePc_stack (s : State) : s.advancePc.stack = s.stack := rfl
@[simp] theorem State.advancePc_pc (s : State) : s.advancePc.pc = s.pc + 3 := rfl
@[simp] theorem State.advancePc_status (s : State) : s.advancePc.status = s.status := rfl

/-! halt -/
@[simp] theorem State.halt_config (s : State) (r : HaltReason) : (s.halt r).config = s.config := rfl
@[simp] theorem State.halt_mem (s : State) (r : HaltReason) : (s.halt r).mem = s.mem := rfl
@[simp] theorem State.halt_stack (s : State) (r : HaltReason) : (s.halt r).stack = s.stack := rfl
@[simp] theorem State.halt_pc (s : State) (r : HaltReason) : (s.halt r).pc = s.pc := rfl
@[simp] theorem State.halt_status (s : State) (r : HaltReason) : (s.halt r).status = .halted r := rfl

/-! undefinedInstruction -/
@[simp] theorem State.undefinedInstruction_config (s : State) (op : Opcode) :
    (s.undefinedInstruction op).config = s.config := rfl
@[simp] theorem State.undefinedInstruction_mem (s : State) (op : Opcode) :
    (s.undefinedInstruction op).mem = s.mem := rfl
@[simp] theorem State.undefinedInstruction_stack (s : State) (op : Opcode) :
    (s.undefinedInstruction op).stack = s.stack := rfl
@[simp] theorem State.undefinedInstruction_pc (s : State) (op : Opcode) :
    (s.undefinedInstruction op).pc = s.pc + 3 := rfl
@[simp] theorem State.undefinedInstruction_status (s : State) (op : Opcode) :
    (s.undefinedInstruction op).status = .halted (.undefinedInstruction op s.pc) := rfl

/-! resetWith -/
@[simp] theorem State.resetWith_config (c : Config) : (State.resetWith c).config = c := rfl
@[simp] theorem State.resetWith_mem (c : Config) : (State.resetWith c).mem = [] := rfl
@[simp] theorem State.resetWith_stack (c : Config) : (State.resetWith c).stack = [] := rfl
@[simp] theorem State.resetWith_pc (c : Config) : (State.resetWith c).pc = 0 := rfl
@[simp] theorem State.resetWith_status (c : Config) : (State.resetWith c).status = .running := rfl

/-! What the reads of the state depend on. -/
theorem State.capacity_congr {s t : State} (h : t.config = s.config) : t.capacity = s.capacity := by
  rw [State.capacity, State.capacity, h]

@[simp] theorem State.capacity_push (s : State) (v : Entry) : (s.push v).capacity = s.capacity := rfl
@[simp] theorem State.capacity_advancePc (s : State) : s.advancePc.capacity = s.capacity := rfl
@[simp] theorem State.capacity_halt (s : State) (r : HaltReason) : (s.halt r).capacity = s.capacity := rfl
@[simp] theorem State.capacity_resetWith (c : Config) : (State.resetWith c).capacity = c.capacity := rfl

theorem State.memRead_congr {s t : State} (hc : t.config = s.config) (hm : t.mem = s.mem) (a : Nat) :
    t.memRead a = s.memRead a := by
  rw [State.memRead, State.memRead, State.capacity_congr hc, hm]

theorem State.fetchWord_congr {s t : State} (hc : t.config = s.config) (hm : t.mem = s.mem) (a : Nat) :
    t.fetchWord a = s.fetchWord a := by
  rw [State.fetchWord, State.fetchWord, State.capacity_congr hc, hm]

end Sys2Proof.Machine
end

