-- ==== Sys2Proof/Laws/Ops.lean ====
section
/-! SUPPORT. For each shared operation, one lemma that says everything it can do. -/

namespace Sys2Proof.Machine

/-! MemRead, MemWrite, FetchWord (R41 to R43). -/

theorem State.memRead_eq_some {s : State} {a : Nat} {b : Byte} :
    s.memRead a = some b ↔ a < s.capacity ∧ s.mem.read a = b := by
  unfold State.memRead
  split <;> simp [*]

theorem State.memRead_eq_none {s : State} {a : Nat} : s.memRead a = none ↔ s.capacity ≤ a := by
  unfold State.memRead
  split <;> simp <;> omega

theorem State.memWrite_eq_some {s t : State} {a : Nat} {v : Entry} :
    s.memWrite a v = some t ↔ a < s.capacity ∧ t = s.setMem (s.mem.write a (byteOfEntry v)) := by
  unfold State.memWrite
  split <;> simp [*, eq_comm]

theorem State.memWrite_eq_none {s : State} {a : Nat} {v : Entry} : s.memWrite a v = none ↔ s.capacity ≤ a := by
  unfold State.memWrite
  split <;> simp <;> omega

theorem State.fetchWord_eq_some {s : State} {a : Nat} {w : InstrWord} :
    s.fetchWord a = some w ↔
      a + 2 < s.capacity ∧ w = wordOfBytes (s.mem.read a) (s.mem.read (a + 1)) (s.mem.read (a + 2)) := by
  unfold State.fetchWord
  split <;> simp [*, eq_comm]

theorem State.fetchWord_eq_none {s : State} {a : Nat} : s.fetchWord a = none ↔ s.capacity ≤ a + 2 := by
  unfold State.fetchWord
  split <;> simp <;> omega

/-! Pops (R22, R143). -/

theorem State.popOne_eq_some {s u : State} {top : Entry} :
    s.popOne = some (top, u) ↔ ∃ rest, s.stack = top :: rest ∧ u = s.setStack rest := by
  unfold State.popOne
  split <;> simp_all [eq_comm]

theorem State.popOne_eq_none {s : State} : s.popOne = none ↔ s.depth < 1 := by
  unfold State.popOne State.depth
  split <;> simp_all

theorem State.popTwo_eq_some {s u : State} {top beneath : Entry} :
    s.popTwo = some (top, beneath, u) ↔
      ∃ rest, s.stack = top :: beneath :: rest ∧ u = s.setStack rest := by
  unfold State.popTwo
  split
  · next h => simp [h, eq_comm, and_assoc]
  · next h =>
    refine ⟨fun h => (Option.some_ne_none _ h.symm).elim, ?_⟩
    rintro ⟨rest, hs, -⟩
    exact (h _ _ _ hs).elim

theorem State.popTwo_eq_none {s : State} : s.popTwo = none ↔ s.depth < 2 := by
  unfold State.popTwo State.depth
  split
  · next h => simp [h]
  · next h =>
    refine ⟨fun _ => ?_, fun _ => rfl⟩
    match hs : s.stack with
    | [] => simp
    | [x] => simp
    | x :: y :: r => exact (h _ _ _ hs).elim

/-! Operands (R132, R133). -/

theorem effectiveAddress_le (base : Entry) (operand : Operand) : effectiveAddress base operand ≤ 262142 := by
  have h1 := base.isLt
  have h2 := operand.isLt
  unfold effectiveAddress
  omega

theorem absoluteAddress_le (operand : Operand) : absoluteAddress operand ≤ 131071 := by
  have := operand.isLt
  unfold absoluteAddress
  omega

theorem entryOfByte_toNat (b : Byte) : (entryOfByte b).toNat = b.toNat := by
  have := b.isLt
  simp [entryOfByte]
  omega

theorem byteOfEntry_toNat (v : Entry) : (byteOfEntry v).toNat = v.toNat % 256 := by
  simp [byteOfEntry]

end Sys2Proof.Machine
end

