-- ==== Sys2Proof/Laws/Step.lean ====
section
/-! SUPPORT. What each meaning answers, by its cases, and what one step can do. -/

namespace Sys2Proof.Machine

/-! The meanings, by the cases of their rules. -/

theorem execLoad_outside {v : Operand} {s : State} (h : s.capacity ≤ absoluteAddress v) :
    execLoad v s = .next (s.advancePc.halt (.outOfBounds (absoluteAddress v) s.pc)) := by
  have : s.advancePc.memRead (absoluteAddress v) = none := State.memRead_eq_none.2 h
  simp [execLoad, this]

theorem execLoad_inside {v : Operand} {s : State} (h : absoluteAddress v < s.capacity) :
    execLoad v s = .next (s.advancePc.push (entryOfByte (s.mem.read (absoluteAddress v)))) := by
  have : s.advancePc.memRead (absoluteAddress v) = some (s.mem.read (absoluteAddress v)) :=
    State.memRead_eq_some.2 ⟨h, rfl⟩
  simp [execLoad, this]

theorem execStore_underflow {v : Operand} {s : State} (h : s.depth < 2) :
    execStore v s = .next (s.advancePc.halt (.stackUnderflow s.pc)) := by
  have : s.advancePc.popTwo = none := State.popTwo_eq_none.2 h
  simp [execStore, this]

theorem execStore_outside {v : Operand} {s : State} {base value : Entry} {rest : List Entry}
    (hs : s.stack = base :: value :: rest) (h : s.capacity ≤ effectiveAddress base v) :
    execStore v s =
      .next ((s.advancePc.setStack rest).halt (.outOfBounds (effectiveAddress base v) s.pc)) := by
  have h1 : s.advancePc.popTwo = some (base, value, (s.advancePc.setStack rest)) :=
    State.popTwo_eq_some.2 ⟨rest, hs, rfl⟩
  have h2 : (s.advancePc.setStack rest).memWrite (effectiveAddress base v) value = none :=
    State.memWrite_eq_none.2 h
  simp only [execStore, h1, h2]

theorem execStore_inside {v : Operand} {s : State} {base value : Entry} {rest : List Entry}
    (hs : s.stack = base :: value :: rest) (h : effectiveAddress base v < s.capacity) :
    execStore v s =
      .next ((s.advancePc.setStack rest).setMem (s.mem.write (effectiveAddress base v) (byteOfEntry value))) := by
  have h1 : s.advancePc.popTwo = some (base, value, (s.advancePc.setStack rest)) :=
    State.popTwo_eq_some.2 ⟨rest, hs, rfl⟩
  have h2 := (State.memWrite_eq_some (s := (s.advancePc.setStack rest)) (v := value)).2 ⟨h, rfl⟩
  simp only [execStore, h1, h2, State.setStack_mem, State.advancePc_mem]

theorem execPopcnt_underflow {v : Operand} {s : State} (h : s.depth < 1) :
    execPopcnt v s = .next (s.advancePc.halt (.stackUnderflow s.pc)) := by
  have : s.advancePc.popOne = none := State.popOne_eq_none.2 h
  simp [execPopcnt, this]

theorem execPopcnt_outside {v : Operand} {s : State} {base : Entry} {rest : List Entry}
    (hs : s.stack = base :: rest) (h : s.capacity ≤ effectiveAddress base v) :
    execPopcnt v s =
      .next ((s.advancePc.setStack rest).halt (.outOfBounds (effectiveAddress base v) s.pc)) := by
  have h1 : s.advancePc.popOne = some (base, (s.advancePc.setStack rest)) :=
    State.popOne_eq_some.2 ⟨rest, hs, rfl⟩
  have h2 : (s.advancePc.setStack rest).memRead (effectiveAddress base v) = none :=
    State.memRead_eq_none.2 h
  simp only [execPopcnt, h1, h2]

theorem execPopcnt_inside {v : Operand} {s : State} {base : Entry} {rest : List Entry}
    (hs : s.stack = base :: rest) (h : effectiveAddress base v < s.capacity) :
    execPopcnt v s =
      .next ((s.advancePc.setStack rest).push
        (entryOfCount (popcount8 (s.mem.read (effectiveAddress base v))))) := by
  have h1 : s.advancePc.popOne = some (base, (s.advancePc.setStack rest)) :=
    State.popOne_eq_some.2 ⟨rest, hs, rfl⟩
  have h2 := (State.memRead_eq_some (s := (s.advancePc.setStack rest))).2 ⟨h, rfl⟩
  simp only [execPopcnt, h1, h2, State.setStack_mem, State.advancePc_mem]

/-- Everything an instruction can do: push, halt, or store one cell; with the guards. -/
inductive Effect (s : State) : Instr → State → Prop where
  | push (v : Operand) : Effect s (.push v) (s.advancePc.push v)
  | load {v : Operand} (h : absoluteAddress v < s.capacity) :
      Effect s (.load v) (s.advancePc.push (entryOfByte (s.mem.read (absoluteAddress v))))
  | loadOutside {v : Operand} (h : s.capacity ≤ absoluteAddress v) :
      Effect s (.load v) (s.advancePc.halt (.outOfBounds (absoluteAddress v) s.pc))
  | storeUnderflow {v : Operand} (h : s.depth < 2) :
      Effect s (.store v) (s.advancePc.halt (.stackUnderflow s.pc))
  | storeOutside {v : Operand} {base value : Entry} {rest : List Entry} (hs : s.stack = base :: value :: rest)
      (h : s.capacity ≤ effectiveAddress base v) :
      Effect s (.store v) ((s.advancePc.setStack rest).halt (.outOfBounds (effectiveAddress base v) s.pc))
  | store {v : Operand} {base value : Entry} {rest : List Entry} (hs : s.stack = base :: value :: rest)
      (h : effectiveAddress base v < s.capacity) :
      Effect s (.store v) ((s.advancePc.setStack rest).setMem (s.mem.write (effectiveAddress base v) (byteOfEntry value)))
  | popcntUnderflow {v : Operand} (h : s.depth < 1) :
      Effect s (.popcnt v) (s.advancePc.halt (.stackUnderflow s.pc))
  | popcntOutside {v : Operand} {base : Entry} {rest : List Entry} (hs : s.stack = base :: rest)
      (h : s.capacity ≤ effectiveAddress base v) :
      Effect s (.popcnt v) ((s.advancePc.setStack rest).halt (.outOfBounds (effectiveAddress base v) s.pc))
  | popcnt {v : Operand} {base : Entry} {rest : List Entry} (hs : s.stack = base :: rest)
      (h : effectiveAddress base v < s.capacity) :
      Effect s (.popcnt v) ((s.advancePc.setStack rest).push
        (entryOfCount (popcount8 (s.mem.read (effectiveAddress base v)))))
  | zeroWord : Effect s .zeroWord (s.halt .normalEnd)

/-- The meaning of an instruction answers a next state, and it is one of the effects above. -/
theorem exec_effect (i : Instr) (s : State) : ∃ t, exec i s = .next t ∧ Effect s i t := by
  cases i with
  | push v => exact ⟨_, rfl, .push v⟩
  | load v =>
    rcases Nat.lt_or_ge (absoluteAddress v) s.capacity with h | h
    · exact ⟨_, execLoad_inside h, .load h⟩
    · exact ⟨_, execLoad_outside h, .loadOutside h⟩
  | store v =>
    match hs : s.stack with
    | [] =>
      have h : s.depth < 2 := by simp [State.depth, hs]
      exact ⟨_, execStore_underflow h, .storeUnderflow h⟩
    | [x] =>
      have h : s.depth < 2 := by simp [State.depth, hs]
      exact ⟨_, execStore_underflow h, .storeUnderflow h⟩
    | base :: value :: rest =>
      rcases Nat.lt_or_ge (effectiveAddress base v) s.capacity with h | h
      · exact ⟨_, execStore_inside hs h, .store hs h⟩
      · exact ⟨_, execStore_outside hs h, .storeOutside hs h⟩
  | popcnt v =>
    match hs : s.stack with
    | [] =>
      have h : s.depth < 1 := by simp [State.depth, hs]
      exact ⟨_, execPopcnt_underflow h, .popcntUnderflow h⟩
    | base :: rest =>
      rcases Nat.lt_or_ge (effectiveAddress base v) s.capacity with h | h
      · exact ⟨_, execPopcnt_inside hs h, .popcnt hs h⟩
      · exact ⟨_, execPopcnt_outside hs h, .popcntOutside hs h⟩
  | zeroWord => exact ⟨_, rfl, .zeroWord⟩

/-- The inversion of `exec`: the state it answers is one of the effects. -/
theorem effect_of_exec {i : Instr} {s t : State} (h : exec i s = .next t) : Effect s i t := by
  obtain ⟨u, hu, he⟩ := exec_effect i s
  rw [hu] at h
  cases h
  exact he

/-- Everything one step can do (R100). -/
inductive StepEffect (s : State) : State → Prop where
  | halted {r : HaltReason} (hs : s.status = .halted r) : StepEffect s s
  | endOfMemory (hs : s.status = .running) (h : s.capacity ≤ s.pc + 2) : StepEffect s (s.halt .endOfMemory)
  | undefined {w : InstrWord} (hs : s.status = .running) (hw : s.fetchWord s.pc = some w) (hz : w ≠ 0)
      (h : mnemonicOfOpcode (opcodeField w) = none) : StepEffect s (s.undefinedInstruction (opcodeField w))
  | instr {w : InstrWord} {i : Instr} {t : State} (hs : s.status = .running) (hw : s.fetchWord s.pc = some w)
      (hd : decodeWord w = .instr i) (he : Effect s i t) : StepEffect s t

theorem step_halted {s : State} {r : HaltReason} (h : s.status = .halted r) : step s = .next s := by
  simp [step, h]

theorem step_incomplete {s : State} (hs : s.status = .running) (h : s.fetchWord s.pc = none) :
    step s = .next (s.halt .endOfMemory) := by
  simp [step, hs, h]

theorem step_decoded {s : State} {w : InstrWord} {i : Instr} (hs : s.status = .running)
    (hw : s.fetchWord s.pc = some w) (hd : decodeWord w = .instr i) : step s = exec i s := by
  simp [step, hs, hw, hd]

theorem step_undefined {s : State} {w : InstrWord} {op : Opcode} (hs : s.status = .running)
    (hw : s.fetchWord s.pc = some w) (hd : decodeWord w = .undefinedOpcode op) :
    step s = .next (s.undefinedInstruction op) := by
  simp [step, hs, hw, hd]

/-- A step answers a next state, and it is one of the effects above. -/
theorem step_effect (s : State) : ∃ t, step s = .next t ∧ StepEffect s t := by
  cases hs : s.status with
  | halted r => exact ⟨s, step_halted hs, .halted hs⟩
  | running =>
    cases hw : s.fetchWord s.pc with
    | none => exact ⟨_, step_incomplete hs hw, .endOfMemory hs (State.fetchWord_eq_none.1 hw)⟩
    | some w =>
      rcases decodeWord_cases w with ⟨_, hd⟩ | ⟨_, m, _, hd⟩ | ⟨hz, hn, hd⟩
      · obtain ⟨t, ht, he⟩ := exec_effect .zeroWord s
        exact ⟨t, (step_decoded hs hw hd).trans ht, .instr hs hw hd he⟩
      · obtain ⟨t, ht, he⟩ := exec_effect (Instr.ofMnemonic m (operandField w)) s
        exact ⟨t, (step_decoded hs hw hd).trans ht, .instr hs hw hd he⟩
      · exact ⟨_, step_undefined hs hw hd, .undefined hs hw hz hn⟩

/-- The inversion of `step`. -/
theorem effect_of_step {s t : State} (h : step s = .next t) : StepEffect s t := by
  obtain ⟨u, hu, he⟩ := step_effect s
  rw [hu] at h
  cases h
  exact he

/-- `cycle` is the state the step answers. -/
theorem step_eq_cycle (s : State) : step s = .next s.cycle := by
  obtain ⟨t, ht, _⟩ := step_effect s
  rw [ht, State.cycle, ht]

/-- No instruction changes the configuration. -/
theorem Effect.config_eq {i : Instr} {s t : State} (h : Effect s i t) : t.config = s.config := by
  cases h <;> rfl

/-- No step changes the configuration (R5). -/
theorem StepEffect.config_eq {s t : State} (h : StepEffect s t) : t.config = s.config := by
  cases h with
  | halted => rfl
  | endOfMemory => rfl
  | undefined => rfl
  | instr _ _ _ he => exact he.config_eq

theorem stepEffect_cycle (s : State) : StepEffect s s.cycle := effect_of_step (step_eq_cycle s)

end Sys2Proof.Machine
end

