-- ==== Sys2Proof/Laws/Driver.lean ====
section
/-! SUPPORT. What the driver's operations answer, by their cases, and the induction over a run. -/

namespace Sys2Proof.Machine

/-! load_program (R55). -/

theorem State.loadProgram_eq_next {s t : State} {bytes : List Byte} :
    s.loadProgram bytes = .next t ↔
      s.status = .running ∧ s.pc = 0 ∧ bytes.length ≤ s.capacity ∧ t = s.setMem (s.mem.writeBytes 0 bytes) := by
  unfold State.loadProgram
  split
  · next h =>
    split
    · next hc => simp [show ¬ bytes.length ≤ s.capacity by omega]
    · next hc => simp [h, show bytes.length ≤ s.capacity by omega, eq_comm]
  · next h => simp [← and_assoc, h]

theorem State.loadProgram_too_large {s : State} {bytes : List Byte} (hs : s.status = .running) (hp : s.pc = 0)
    (h : s.capacity < bytes.length) : s.loadProgram bytes = .fault .programTooLarge := by
  simp [State.loadProgram, hs, hp, h]

theorem State.loadProgram_late {s : State} {bytes : List Byte} (h : s.status ≠ .running ∨ s.pc ≠ 0) :
    s.loadProgram bytes = .refused .loadOutsideReset := by
  rw [State.loadProgram, if_neg]
  rintro ⟨h1, h2⟩
  exact h.elim (· h1) (· h2)

/-! memory_snapshot (R56). -/

theorem State.memorySnapshot_inside {s : State} {start stop : Nat} (h : start ≤ stop ∧ stop ≤ s.capacity) :
    s.memorySnapshot start stop = .ok ((List.range' start (stop - start)).map fun a => (a, s.mem.read a)) :=
  if_pos h

theorem State.memorySnapshot_outside {s : State} {start stop : Nat} (h : ¬(start ≤ stop ∧ stop ≤ s.capacity)) :
    s.memorySnapshot start stop = .error .snapshotOutOfRange := if_neg h

/-! run (R108). -/

theorem Status.isHalted_iff {st : Status} : st.isHalted = true ↔ ∃ r, st = .halted r := by
  cases st <;> simp [Status.isHalted]

theorem State.cycle_of_halted {s : State} (h : s.status.isHalted = true) : s.cycle = s := by
  obtain ⟨r, hr⟩ := Status.isHalted_iff.1 h
  rw [State.cycle, step_halted hr]

theorem State.runFor_of_halted {s : State} (h : s.status.isHalted = true) (n : Nat) : State.runFor n s = s := by
  cases n <;> simp [State.runFor, h]

/-- A run is its first cycle and the rest of the run. -/
theorem State.runFor_succ (n : Nat) (s : State) : State.runFor (n + 1) s = State.runFor n s.cycle := by
  rw [State.runFor]
  split
  · next h => rw [State.cycle_of_halted h, State.runFor_of_halted h]
  · rfl

/-- The host's run of a machine is its first step and the rest of the run. -/
theorem core_run_succ (M : Host.Core) (n : Nat) (s t : M.State) (h : M.step s = .next t) :
    M.run (n + 1) s = M.run n t := by
  rw [Host.Core.run, h]

/-- A run of `n + 1` cycles is a run of `n` cycles and one cycle more. -/
theorem State.runFor_succ_last (n : Nat) (s : State) : State.runFor (n + 1) s = (State.runFor n s).cycle := by
  induction n generalizing s with
  | zero => rw [State.runFor_succ]; rfl
  | succ n ih => rw [State.runFor_succ, ih, ← State.runFor_succ]

/-- What every cycle keeps, every run keeps. -/
theorem State.runFor_induction {P : State → Prop} (hstep : ∀ s, P s → P s.cycle) (n : Nat) {s : State} (hs : P s) :
    P (State.runFor n s) := by
  induction n generalizing s with
  | zero => exact hs
  | succ n ih => rw [State.runFor_succ]; exact ih (hstep s hs)

end Sys2Proof.Machine
end

