-- ==== Sys2Proof/Laws/PerInstr.lean ====
section
/-! SUPPORT. Statements made for every instruction, one lemma per constructor: each encoded word matches its row of
spec/opcode_table.json, `w & mask = match`. -/

namespace Sys2Proof.Laws

/-- The "mask" of an instruction's row in spec/opcode_table.json. -/
def rowMask : Instr → InstrWord
  | .push _ => 0x00007F
  | .load _ => 0x00007F
  | .store _ => 0x00007F
  | .popcnt _ => 0x00007F
  | .zeroWord => 0xFFFFFF

/-- The "match" of an instruction's row in spec/opcode_table.json. -/
def rowMatch : Instr → InstrWord
  | .push _ => 0x000022
  | .load _ => 0x000021
  | .store _ => 0x000050
  | .popcnt _ => 0x00000E
  | .zeroWord => 0x000000

/-- The low seven bits of a word of the four instructions are its opcode. -/
theorem encodeFields_and_mask (m : Mnemonic) (v : Operand) :
    encodeFields m v &&& 0x00007F = (opcodeOf m).setWidth 24 := by
  have key : ∀ w : InstrWord, w &&& 0x00007F = (opcodeField w).setWidth 24 := by
    intro w
    apply BitVec.eq_of_toNat_eq
    rw [BitVec.toNat_and]
    refine (Nat.and_two_pow_sub_one_eq_mod w.toNat 7).trans ?_
    simp [opcodeField]
    omega
  rw [key, opcodeField_encodeFields]

/-- Family TableRow: the word of an instruction matches its row. -/
def TableRow.Statement (i : Instr) : Prop := encode i &&& rowMask i = rowMatch i

theorem TableRow.push (v : Operand) : TableRow.Statement (.push v) :=
  (encodeFields_and_mask .push v).trans rfl

theorem TableRow.load (v : Operand) : TableRow.Statement (.load v) :=
  (encodeFields_and_mask .load v).trans rfl

theorem TableRow.store (v : Operand) : TableRow.Statement (.store v) :=
  (encodeFields_and_mask .store v).trans rfl

theorem TableRow.popcnt (v : Operand) : TableRow.Statement (.popcnt v) :=
  (encodeFields_and_mask .popcnt v).trans rfl

theorem TableRow.zeroWord : TableRow.Statement .zeroWord := by
  unfold TableRow.Statement
  decide

end Sys2Proof.Laws
end

