-- ==== Sys2Proof/Tests/Slice0.lean ====
section
/-! SUPPORT. The model's own tests. Expected values are those of spec/95_test_vectors.md, named by their ids, or are worked
out by hand from the rule named. Then one witness per statement that has hypotheses. -/

namespace Sys2Proof.Tests

open Sys2Proof.Machine

/-- A running machine of `cap` cells with bytes from address 0, further cells, a stack (top first), and `pc = 0`. -/
def machine (cap : Nat) (bytes : List Byte) (preset : List (Nat × Byte) := []) (stack : List Entry := []) : State :=
  { config := ⟨cap⟩
    mem := preset.foldl (fun m c => m.write c.1 c.2) (Memory.writeBytes [] 0 bytes)
    stack := stack, pc := 0, status := .running }

/-- The next state of an outcome, so that outcomes can be compared. -/
def nextOf : Host.Outcome State Fault Refusal → Option State
  | .next t => some t
  | .fault _ => none
  | .refused _ => none

/-- What a test looks at: stack (top first), `pc`, run state. -/
def view (o : Host.Outcome State Fault Refusal) : Option (List Entry × Nat × Status) :=
  (nextOf o).map fun t => (t.stack, t.pc, t.status)

/-- A cell of the next state. -/
def cell (o : Host.Outcome State Fault Refusal) (a : Nat) : Option Byte :=
  (nextOf o).bind fun t => t.memRead a

/-! WellFormed: a term each check refuses. -/

-- E-ERR-1 (S3), E-ERR-3, E-ERR-4
theorem test_wellFormed_refuses_131072 : (Command.mk .push 131072 1).wellFormed = false := by decide
theorem test_wellFormed_refuses_negative : (Command.mk .store (-1) 1).wellFormed = false := by decide
theorem test_wellFormed_accepts_131071 : (Command.mk .load 131071 1).wellFormed = true := by decide
theorem test_unitWellFormed_refuses :
    unitWellFormed [⟨.push, 1, 1⟩, ⟨.push, 131072, 2⟩, ⟨.push, 2, 3⟩] = false := by decide
-- R76: the assembler cannot emit the sentinel
theorem test_sentinel_does_not_assemble : Instr.zeroWord.assembles = false := by decide
theorem test_memory_wf_refuses_order : Memory.wf [(5, 1), (5, 2)] = false := by decide
theorem test_memory_wf_refuses_zero : Memory.wf [(5, 0)] = false := by decide

/-! Decoding: words written out from R71 and R75, bit 23 first (operand, then opcode). -/

-- PUSH 12345 (E-6): operand 00011000000111001, opcode 0100010
theorem test_decode_push : decodeWord 0b00011000000111001_0100010 = .instr (.push 12345) := by decide
-- LOAD 2047 (E-14): operand 00000011111111111, opcode 0100001
theorem test_decode_load : decodeWord 0b00000011111111111_0100001 = .instr (.load 2047) := by decide
-- STORE 500 (E-23): operand 00000000111110100, opcode 1010000
theorem test_decode_store : decodeWord 0b00000000111110100_1010000 = .instr (.store 500) := by decide
-- POPCNT 131071 (E-34): operand all ones, opcode 0001110
theorem test_decode_popcnt : decodeWord 0b11111111111111111_0001110 = .instr (.popcnt 131071) := by decide
-- DEC-1
theorem test_decode_sentinel : decodeWord 0b00000000000000000_0000000 = .instr .zeroWord := by decide
-- DEC-2 and DEC-9 to DEC-14: opcode 0 with an operand, and the neighbours of the four opcodes
theorem test_decode_opcode_zero : decodeWord 0x000080 = .undefinedOpcode 0 := by decide
theorem test_decode_neighbours :
    [0x20, 0x23, 0x0D, 0x0F, 0x4F, 0x51].map decodeWord =
      [32, 35, 13, 15, 79, 81].map Decoded.undefinedOpcode := by decide
-- DEC-5, from its bytes
theorem test_decode_bytes : decodeBytes [0xA2, 0x80, 0x00, 0x21] = some (.instr (.push 257), [0x21]) := by decide
theorem test_decode_incomplete : decodeBytes [0xA2, 0x80] = none := by decide
-- E-26, E-20, E-10
theorem test_encode_store : encodeBytes (.store 131071) = [0xD0, 0xFF, 0xFF] := by decide
theorem test_encode_one : [encode (.store 1), encode (.load 1)] = [0x0000D0, 0x0000A1] := by decide
-- S4's program
theorem test_assemble :
    assemble [⟨.push, 12345, 1⟩, ⟨.push, 0, 2⟩, ⟨.store, 500, 3⟩] =
      .ok [0xA2, 0x1C, 0x18, 0x22, 0x00, 0x00, 0x50, 0xFA, 0x00] := by decide
-- E-ERR-4
theorem test_assemble_aborts :
    assemble [⟨.push, 1, 1⟩, ⟨.push, 131072, 2⟩, ⟨.push, 2, 3⟩] = .error ⟨2, 131072⟩ := by decide
-- R85: case-insensitive mnemonics
theorem test_lookup : [lookup "push", lookup "Popcnt", lookup "HALT"] =
    [some (specOf .push), some (specOf .popcnt), none] := by decide

/-! The instructions. -/

-- V-PUSH-3: the largest operand is not truncated
theorem test_push_largest :
    view (step (machine 2048 [0xA2, 0xFF, 0xFF])) = some ([131071], 3, .running) := by decide
-- V-LOAD-3: the last cell, not sign-extended
theorem test_load_last_cell :
    view (step (machine 2048 [0xA1, 0xFF, 0x03] [(2047, 171)])) = some ([171], 3, .running) := by decide
-- V-LOAD-6, its second cycle: the earlier entry stays
theorem test_load_out_of_bounds :
    view (exec (.load 4000) (machine 2048 [] [] [5])) =
      some ([5], 3, .halted (.outOfBounds 4000 0)) := by decide
-- V-STORE-3, its third cycle: address on top, value beneath, last cell, low 8 bits
theorem test_store_last_cell :
    cell (exec (.store 47) (machine 2048 [] [] [2000, 511])) 2047 = some 255 := by decide
-- V-STORE-5, its third cycle: no wrap, both entries popped
theorem test_store_no_wrap :
    view (exec (.store 131071) (machine 2048 [] [] [131071, 9])) =
      some ([], 3, .halted (.outOfBounds 262142 0)) := by decide
-- V-POPCNT-9, its third cycle: the entry beneath the base is kept
theorem test_popcnt_keeps_beneath :
    view (exec (.popcnt 100) (machine 2048 [] [(500, 1)] [400, 8])) = some ([1, 8], 3, .running) := by decide
-- V-POPCNT-5, its second cycle: the base is popped and nothing is pushed
theorem test_popcnt_out_of_bounds :
    view (exec (.popcnt 1) (machine 2048 [] [] [2047])) =
      some ([], 3, .halted (.outOfBounds 2048 0)) := by decide
-- S6
theorem test_sentinel : view (step (machine 2048 [0, 0, 0])) = some ([], 0, .halted .normalEnd) := by decide
-- V-END-11
theorem test_opcode_zero_halts :
    view (step (machine 2048 [0x00, 0x00, 0x80])) = some ([], 3, .halted (.undefinedInstruction 0 0)) := by decide
-- V-END-2
theorem test_end_of_memory : view (step (machine 2 [])) = some ([], 0, .halted .endOfMemory) := by decide
-- S7, V-STORE-7: underflow is tested before the bounds, and the lone entry stays
theorem test_store_underflow_first :
    view (exec (.store 131071) (machine 2048 [] [] [7])) = some ([7], 3, .halted (.stackUnderflow 0)) := by decide

/-! The driver and the host's two functions. -/

-- V-END-5
theorem test_load_too_large :
    (machine 3 []).perform (.loadProgram [0x22, 0, 0, 0]) = (machine 3 [], .programTooLarge) := by decide
-- V-HOST-3: a second load overlays the first
theorem test_load_twice :
    ((machine 2048 []).perform (.loadProgram [1, 2, 3, 4, 5, 6])).1.perform (.loadProgram [9, 9]) =
      (machine 2048 [9, 9, 3, 4, 5, 6], .done) := by decide
-- V-HOST-4
theorem test_snapshot :
    ((machine 2048 [] [(500, 57)]).perform (.memorySnapshot 499 502)).2 =
      .cells [(499, 0), (500, 57), (501, 0)] := by decide
-- V-END-3, and V-LOAD-7's end
theorem test_run_no_memory : ((machine 0 []).perform .run).2 = .halted .endOfMemory := by decide
theorem test_run_small : ((machine 3 [0x21, 0x01, 0x00]).perform .run).2 = .halted .endOfMemory := by decide
theorem test_table_word : decodeTableWord 24 0x0000D0 = some (.store 1) := by decide
theorem test_table_word_undefined : decodeTableWord 24 0x00000D = none := by decide
theorem test_withFetchWord :
    view (step (State.reset.withFetchWord 24 0x0000A2)) = some ([1], 3, .running) := by decide

/-! Witnesses: for each statement with hypotheses, a state and operands that meet all of them, at a boundary of each clause. -/

theorem witness_EncodedFieldsRoundTrip :
    ∃ m b, decodeWord 0xFFFFA2 = .instr (Instr.ofMnemonic m b) := ⟨.push, 131071, by decide⟩

theorem witness_DecodedWordIsItsEncoding : decodeWord 0xFFFF8E = .instr (.popcnt 131071) := by decide

theorem witness_EncoderChecksTheRange :
    ((0 : Int) ≤ (Command.mk .push 0 1).operand ∧ (Command.mk .push 0 1).operand ≤ 131071) ∧
    ((0 : Int) ≤ (Command.mk .push 131071 1).operand ∧ (Command.mk .push 131071 1).operand ≤ 131071) ∧
    ((Command.mk .push (-1) 1).operand < 0) ∧ (131071 < (Command.mk .push 131072 1).operand) := by decide

theorem witness_UnitIsConcatenatedOrAborted :
    (∀ c ∈ [Command.mk .push 0 1, Command.mk .store 131071 2], c.wellFormed = true) ∧
    (∃ before c after, [Command.mk .push 0 1, Command.mk .load 131072 2] = before ++ c :: after ∧
      (∀ d ∈ before, d.wellFormed = true) ∧ c.wellFormed = false) :=
  ⟨by decide, [Command.mk .push 0 1], Command.mk .load 131072 2, [], by decide⟩

/-- Two commands that fill a memory of six cells exactly. -/
theorem witness_LoadedUnitIsFetchedInSourceOrder :
    ∃ (cs : List Command) (bytes : List Byte) (t : State),
      assemble cs = .ok bytes ∧ (State.resetWith ⟨6⟩).loadProgram bytes = .next t ∧ 1 < cs.length :=
  ⟨[⟨.push, 1, 1⟩, ⟨.push, 2, 2⟩], [0xA2, 0, 0, 0x22, 1, 0], _, by decide, rfl, by decide⟩

theorem witness_CellsArePlainStorage :
    2047 < (machine 2048 []).capacity ∧ (machine 2048 []).capacity ≤ 2048 ∧ 0 < (Config.mk 1).capacity := by decide

theorem witness_FetchWordReassemblesOrIsIncomplete :
    2045 + 2 < (machine 2048 []).capacity ∧ (machine 2048 []).capacity ≤ 2046 + 2 ∧
    (machine 2 []).status = .running ∧ (machine 2 []).fetchWord (machine 2 []).pc = none := by decide

theorem witness_LoadInBoundsCompletes : (2047 : Operand).toNat < (machine 2048 []).capacity := by decide

theorem witness_StoreInBoundsCompletes :
    (machine 2048 [] [] [2000, 511]).stack = 2000 :: 511 :: [] ∧
    (2000 : Entry).toNat + (47 : Operand).toNat < (machine 2048 [] [] [2000, 511]).capacity := by decide

theorem witness_PopcntInBoundsCompletes :
    (machine 2048 [] [] [2047]).stack = 2047 :: [] ∧
    (2047 : Entry).toNat + (0 : Operand).toNat < (machine 2048 [] [] [2047]).capacity := by decide

theorem witness_ZeroWordHaltsNormally :
    ((machine 3 [0, 0, 0]).status = .running ∧
      (machine 3 [0, 0, 0]).fetchWord (machine 3 [0, 0, 0]).pc = some 0) ∧
    (0x000080 : InstrWord) ≠ 0 ∧
    ((machine 3 []).status = .running ∧ (machine 3 []).pc = 0 ∧ 3 ≤ (machine 3 []).capacity ∧
      ∀ a, (machine 3 []).mem.read a = 0) :=
  ⟨by decide, by decide, rfl, rfl, by decide, fun _ => rfl⟩

theorem witness_LoadOutOfBoundsHalts : (machine 2048 []).capacity ≤ (2048 : Operand).toNat := by decide

theorem witness_StoreHaltsOnUnderflowThenBounds :
    (machine 2048 [] [] [7]).depth < 2 ∧
    ((machine 2048 [] [] [2000, 9]).stack = 2000 :: 9 :: [] ∧
      (machine 2048 [] [] [2000, 9]).capacity ≤ (2000 : Entry).toNat + (48 : Operand).toNat) := by decide

theorem witness_PopcntHaltsOnUnderflowThenBounds :
    (machine 2048 []).depth < 1 ∧
    ((machine 2048 [] [] [2047]).stack = 2047 :: [] ∧
      (machine 2048 [] [] [2047]).capacity ≤ (2047 : Entry).toNat + (1 : Operand).toNat) := by decide

theorem witness_UndefinedWordHalts :
    (machine 3 [0x0D, 0, 0]).status = .running ∧
    (machine 3 [0x0D, 0, 0]).fetchWord (machine 3 [0x0D, 0, 0]).pc = some 0x00000D ∧
    (0x00000D : InstrWord) ≠ 0 ∧ opcodeField 0x00000D ∉ definedOpcodes := by decide

theorem witness_NonStoringInstructionsFrame :
    (∃ t, exec (.push 1) (machine 3 []) = .next t) ∧ (∃ t, exec (.load 2) (machine 3 []) = .next t) ∧
    (∃ t, exec (.load 3) (machine 3 []) = .next t) ∧ (∃ t, exec (.popcnt 0) (machine 3 [] [] [2]) = .next t) ∧
    (∃ t, exec .zeroWord (machine 3 []) = .next t) :=
  ⟨⟨_, rfl⟩, ⟨_, rfl⟩, ⟨_, rfl⟩, ⟨_, rfl⟩, ⟨_, rfl⟩⟩

/-- Each premise inside STORE's frame: an address inside, one outside, and too few entries. -/
theorem witness_StoreFrame :
    (∃ t, exec (.store 0) (machine 3 [] [] [2, 9]) = .next t) ∧
    effectiveAddress 2 0 < (machine 3 [] [] [2, 9]).capacity ∧
    (∃ t, exec (.store 1) (machine 3 [] [] [2, 9]) = .next t) ∧
    (machine 3 [] [] [2, 9]).capacity ≤ effectiveAddress 2 1 ∧
    (∃ t, exec (.store 0) (machine 3 [] [] [2]) = .next t) ∧ (machine 3 [] [] [2]).depth < 2 :=
  ⟨⟨_, rfl⟩, by decide, ⟨_, rfl⟩, by decide, ⟨_, rfl⟩, by decide⟩

theorem witness_EntriesBeneathAreUntouched :
    entriesTaken (.store 0) ≤ (machine 3 [] [] [2, 9]).depth ∧
    entriesTaken (.popcnt 0) ≤ (machine 3 [] [] [2]).depth ∧ entriesTaken (.push 0) ≤ (machine 3 []).depth := by decide

theorem witness_StepRunsTheDecodedInstruction :
    (machine 3 [0x21, 1, 0]).status = .running ∧
    (machine 3 [0x21, 1, 0]).pc + 2 < (machine 3 [0x21, 1, 0]).capacity ∧
    decodeBytes [(machine 3 [0x21, 1, 0]).mem.read 0, (machine 3 [0x21, 1, 0]).mem.read 1,
      (machine 3 [0x21, 1, 0]).mem.read 2] = some (.instr (.load 2), []) := by decide

theorem witness_EndOfMemoryTestComesFirst :
    ((machine 2 []).status = .running ∧ (machine 2 []).pc + 2 ≥ (machine 2 []).capacity) ∧
    (∃ t, step (machine 2 []) = .next t ∧ t.status = .halted .endOfMemory) ∧ (Config.mk 2).capacity < 3 :=
  ⟨by decide, ⟨_, rfl, rfl⟩, by decide⟩

theorem witness_TestsAreMadeInOrder_ends :
    ((machine 3 []).halt .normalEnd).status = .halted .normalEnd ∧
    ((machine 2 []).status = .running ∧ (machine 2 []).capacity ≤ (machine 2 []).pc + 2) ∧
    ((machine 3 []).status = .running ∧ (machine 3 []).fetchWord (machine 3 []).pc = some 0) := by decide

/-- R147's own case: a STORE of 131071 with one entry; and an undefined word beside it. -/
theorem witness_TestsAreMadeInOrder_faults :
    ((machine 3 [0x51, 0, 0]).fetchWord 0 = some 0x000051 ∧ opcodeField 0x000051 ∉ definedOpcodes) ∧
    ((machine 3 [0xD0, 0xFF, 0xFF] [] [7]).fetchWord 0 = some 0xFFFFD0 ∧
      decodeWord 0xFFFFD0 = .instr (.store 131071) ∧
      (machine 3 [0xD0, 0xFF, 0xFF] [] [7]).depth < entriesTaken (.store 131071)) := by decide

theorem witness_TestsAreMadeInOrder_bounds :
    ((machine 3 [0xA1, 1, 0]).fetchWord 0 = some 0x0001A1 ∧ decodeWord 0x0001A1 = .instr (.load 3) ∧
      (machine 3 [0xA1, 1, 0]).capacity ≤ absoluteAddress 3) ∧
    ((machine 3 [0xD0, 0, 0] [] [2, 9]).fetchWord 0 = some 0x0000D0 ∧ decodeWord 0x0000D0 = .instr (.store 1) ∧
      2 ≤ (machine 3 [0xD0, 0, 0] [] [2, 9]).depth ∧ (machine 3 [0xD0, 0, 0] [] [2, 9]).stack.head? = some 2 ∧
      (machine 3 [0xD0, 0, 0] [] [2, 9]).capacity ≤ effectiveAddress 2 1) ∧
    ((machine 3 [0x8E, 0, 0] [] [2]).fetchWord 0 = some 0x00008E ∧ decodeWord 0x00008E = .instr (.popcnt 1) ∧
      1 ≤ (machine 3 [0x8E, 0, 0] [] [2]).depth ∧ (machine 3 [0x8E, 0, 0] [] [2]).stack.head? = some 2 ∧
      (machine 3 [0x8E, 0, 0] [] [2]).capacity ≤ effectiveAddress 2 1) := by decide

/-- Both premises of R24's clauses: a cycle that ends at a test, and one that dispatches. -/
theorem witness_PcStaysOrAdvancesByThree :
    (machine 2 []).capacity ≤ (machine 2 []).pc + 2 ∧
    ¬((∃ r, (machine 3 [1]).status = .halted r) ∨ (machine 3 [1]).capacity ≤ (machine 3 [1]).pc + 2 ∨
      (machine 3 [1]).fetchWord (machine 3 [1]).pc = some 0) := by
  refine ⟨by decide, ?_⟩
  rintro (⟨r, h⟩ | h | h)
  · exact Status.noConfusion h
  · exact absurd h (by decide)
  · exact absurd h (by decide)

/-- A STORE over its own first cell (as in P3c). -/
theorem witness_StoreIsSeenByTheNextFetch :
    (machine 9 [0x50, 0, 0] [] [0, 34]).status = .running ∧
    (machine 9 [0x50, 0, 0] [] [0, 34]).fetchWord 0 = some 0x000050 ∧ decodeWord 0x000050 = .instr (.store 0) ∧
    (machine 9 [0x50, 0, 0] [] [0, 34]).stack = 0 :: 34 :: [] ∧
    effectiveAddress 0 0 < (machine 9 [0x50, 0, 0] [] [0, 34]).capacity ∧
    6 + 2 < (machine 9 [0x50, 0, 0] [] [0, 34]).capacity := by decide

/-- A STORE over its own first cell, then a PUSH: one cycle that stores nothing; the fetch at 0 covers the cell. -/
theorem witness_StoredByteIsFetchedUntilStoredOver :
    (machine 9 [0x50, 0, 0, 0x22] [] [0, 34]).status = .running ∧
    (machine 9 [0x50, 0, 0, 0x22] [] [0, 34]).fetchWord 0 = some 0x000050 ∧
    decodeWord 0x000050 = .instr (.store 0) ∧ (machine 9 [0x50, 0, 0, 0x22] [] [0, 34]).stack = 0 :: 34 :: [] ∧
    effectiveAddress 0 0 < (machine 9 [0x50, 0, 0, 0x22] [] [0, 34]).capacity ∧
    (∃ t, step (machine 9 [0x50, 0, 0, 0x22] [] [0, 34]) = .next t ∧
      ∀ k, k < 1 → ¬(State.runFor k t).StoresTo (effectiveAddress 0 0)) ∧
    0 + 0 = effectiveAddress 0 0 ∧ 0 + 2 < (machine 9 [0x50, 0, 0, 0x22] [] [0, 34]).capacity := by
  refine ⟨by decide, by decide, by decide, by decide, by decide, ⟨_, rfl, ?_⟩, by decide, by decide⟩
  rintro k hk ⟨-, w, v, base, value, rest, -, -, hst, -⟩
  obtain rfl : k = 0 := by omega
  exact List.noConfusion rfl (heq_of_eq hst)

theorem witness_OnlyStoreChangesMemory :
    ∃ t, step (machine 9 [0x50, 0, 0] [] [8, 34]) = .next t ∧
      t.memRead 8 ≠ (machine 9 [0x50, 0, 0] [] [8, 34]).memRead 8 :=
  ⟨_, rfl, by decide⟩

/-- Each of the five reasons is recorded by some step. -/
theorem witness_HaltReasonsHaveTheirCauses :
    (∃ t, step (machine 2 []) = .next t ∧ t.status = .halted .endOfMemory) ∧
    (∃ t, step (machine 3 []) = .next t ∧ t.status = .halted .normalEnd) ∧
    (∃ t, step (machine 3 [0x7F]) = .next t ∧ t.status = .halted (.undefinedInstruction 127 0)) ∧
    (∃ t, step (machine 3 [0xA1, 1, 0]) = .next t ∧ t.status = .halted (.outOfBounds 3 0)) ∧
    (∃ t, step (machine 3 [0x0E]) = .next t ∧ t.status = .halted (.stackUnderflow 0)) :=
  ⟨⟨_, rfl, by decide⟩, ⟨_, rfl, by decide⟩, ⟨_, rfl, by decide⟩, ⟨_, rfl, by decide⟩, ⟨_, rfl, by decide⟩⟩

/-- The popped entries of OutOfBounds in STORE, POPCNT and LOAD. -/
theorem witness_HaltingCycleLeavesMemory :
    (∃ t, step (machine 3 [0xD0, 0, 0] [] [2, 9, 5]) = .next t ∧ t.status = .halted (.outOfBounds 3 0) ∧
      t.stack = [5]) ∧
    (∃ t, step (machine 3 [0x8E, 0, 0] [] [2, 9, 5]) = .next t ∧ t.status = .halted (.outOfBounds 3 0) ∧
      t.stack = [9, 5]) ∧
    (∃ t, step (machine 3 [0xA1, 1, 0] [] [2, 9, 5]) = .next t ∧ t.status = .halted (.outOfBounds 3 0) ∧
      t.stack = [2, 9, 5]) :=
  ⟨⟨_, rfl, by decide, by decide⟩, ⟨_, rfl, by decide, by decide⟩, ⟨_, rfl, by decide, by decide⟩⟩

/-- A state in the middle of a run (P5 after two cycles), with cells and a stack at its bound. -/
def midRun : State :=
  { machine 2048 [0xA2, 0x02, 0x00, 0x22, 0xFC, 0x03, 0x50, 0x04, 0x00, 0xA2] [] [2040, 5] with pc := 6 }

theorem midRun_inv : midRun.Inv :=
  ⟨by decide, by decide, by decide, by decide, by decide, trivial⟩

theorem witness_StepKeepsInv : midRun.Inv ∧ ∃ t, step midRun = .next t := ⟨midRun_inv, _, rfl⟩

theorem witness_DriverKeepsInv : midRun.Inv := midRun_inv

theorem witness_StackNeverOverflows : midRun.Inv ∧ midRun.capacity / 3 ≤ 682 := ⟨midRun_inv, by decide⟩

theorem witness_RunIsStepRepeated :
    (machine 6 []).capacity / 3 < 3 ∧ ((machine 6 []).halt .endOfMemory).status = .halted .endOfMemory := by decide

theorem witness_OnlyResetLeavesHalted :
    ((machine 6 []).halt (.stackUnderflow 0)).status = .halted (.stackUnderflow 0) ∧
    ∀ config, DriverOp.loadProgram [1] ≠ .reset config := ⟨rfl, fun _ h => DriverOp.noConfusion h⟩

theorem witness_LoadProgramCopiesOrFails :
    ((machine 3 []).status = .running ∧ (machine 3 []).pc = 0 ∧ [1, 2, (3 : Byte)].length ≤ (machine 3 []).capacity) ∧
    ((machine 3 []).capacity < [1, 2, 3, (4 : Byte)].length) ∧ midRun.pc ≠ 0 ∧
    ((machine 3 []).halt .normalEnd).status ≠ .running := by decide

theorem witness_SnapshotListsTheCells :
    (2048 ≤ 2048 ∧ 2048 ≤ (machine 2048 []).capacity) ∧ (2047 < 2048 ∧ 2048 ≤ (machine 2048 []).capacity) ∧
    (machine 2048 []).capacity < 2049 := by decide

end Sys2Proof.Tests
end

section
/-! PROOFS. The stack's depth against the program counter (R23 (b), R25): one cycle either leaves `pc` and the stack alone, or
moves `pc` three on and adds at most one entry; so the depth stays within `pc / 3`, and `pc` within memory. -/

namespace Sys2Proof.Machine

/-! The depth after each update of the state. -/

@[simp] theorem State.depth_setMem (s : State) (m : Memory) : (s.setMem m).depth = s.depth := rfl
@[simp] theorem State.depth_setStack (s : State) (l : List Entry) : (s.setStack l).depth = l.length := rfl
@[simp] theorem State.depth_push (s : State) (v : Entry) : (s.push v).depth = s.depth + 1 := rfl
@[simp] theorem State.depth_advancePc (s : State) : s.advancePc.depth = s.depth := rfl
@[simp] theorem State.depth_halt (s : State) (r : HaltReason) : (s.halt r).depth = s.depth := rfl
@[simp] theorem State.depth_undefinedInstruction (s : State) (op : Opcode) :
    (s.undefinedInstruction op).depth = s.depth := rfl

theorem State.depth_of_stack_cons {s : State} {top : Entry} {rest : List Entry} (h : s.stack = top :: rest) :
    s.depth = rest.length + 1 := by
  rw [State.depth, h, List.length_cons]

/-! What one instruction and one cycle do to `pc` and the depth. -/

/-- An instruction pushes at most one entry more than it pops (R22, R23). -/
theorem Effect.depth_le_succ {s t : State} {i : Instr} (h : Effect s i t) : t.depth ≤ s.depth + 1 := by
  cases h with
  | push _ | load _ => simp
  | loadOutside _ | storeUnderflow _ | popcntUnderflow _ | zeroWord => simp
  | storeOutside hs _ | store hs _ =>
    have hdepth := State.depth_of_stack_cons hs
    simp only [State.depth_halt, State.depth_setMem, State.depth_setStack, List.length_cons] at hdepth ⊢
    omega
  | popcntOutside hs _ | popcnt hs _ =>
    have hdepth := State.depth_of_stack_cons hs
    simp only [State.depth_halt, State.depth_push, State.depth_setStack]
    omega

/-- Only the sentinel leaves `pc` where it is, and it leaves the stack as well (R103, R105). -/
theorem Effect.pc_advances_or_pc_stack_eq {s t : State} {i : Instr} (h : Effect s i t) :
    t.pc = s.pc + 3 ∨ (t.pc = s.pc ∧ t.stack = s.stack) := by
  cases h with
  | zeroWord => exact .inr ⟨rfl, rfl⟩
  | _ => exact .inl rfl

/-- A cycle that moves `pc` has fetched three cells, moves it by 3 and raises the depth by at most 1; any other cycle leaves
the stack as it is (R23 (b), R25). -/
theorem StepEffect.pc_advances_or_pc_stack_eq {s t : State} (h : StepEffect s t) :
    (s.pc + 3 ≤ s.capacity ∧ t.pc = s.pc + 3 ∧ t.depth ≤ s.depth + 1) ∨ (t.pc = s.pc ∧ t.stack = s.stack) := by
  cases h with
  | halted _ => exact .inr ⟨rfl, rfl⟩
  | endOfMemory _ _ => exact .inr ⟨rfl, rfl⟩
  | undefined _ hw _ _ => exact .inl ⟨(State.fetchWord_eq_some.1 hw).1, rfl, by simp⟩
  | instr _ hw _ he =>
    exact he.pc_advances_or_pc_stack_eq.imp_left fun hpc =>
      ⟨(State.fetchWord_eq_some.1 hw).1, hpc, he.depth_le_succ⟩

/-! The bound along a run. -/

/-- R23 (b), R25 (b): the part of the invariant that bounds the stack, and that every cycle keeps by itself. -/
structure State.DepthBounded (s : State) : Prop where
  pcInMemory : s.pc ≤ s.capacity
  depthBound : s.depth ≤ s.pc / 3

theorem State.Inv.depthBounded {s : State} (h : s.Inv) : s.DepthBounded := ⟨h.pcInMemory, h.depthBound⟩

theorem State.DepthBounded.depth_le {s : State} (h : s.DepthBounded) : s.depth ≤ s.capacity / 3 :=
  h.depthBound.trans (Nat.div_le_div_right h.pcInMemory)

theorem StepEffect.depthBounded {s t : State} (h : StepEffect s t) (hb : s.DepthBounded) : t.DepthBounded := by
  obtain ⟨hpcs, hdepth⟩ := hb
  have hcap : t.capacity = s.capacity := State.capacity_congr h.config_eq
  obtain ⟨hroom, hpc, hd⟩ | ⟨hpc, hstack⟩ := h.pc_advances_or_pc_stack_eq
  · exact ⟨by omega, by omega⟩
  · have hd : t.depth = s.depth := congrArg List.length hstack
    exact ⟨by omega, by omega⟩

theorem State.DepthBounded.runFor {s : State} (h : s.DepthBounded) (n : Nat) : (State.runFor n s).DepthBounded :=
  State.runFor_induction (fun u => (stepEffect_cycle u).depthBounded) n h

/-- No run changes the configuration (R5). -/
theorem State.runFor_config (n : Nat) (s : State) : (State.runFor n s).config = s.config :=
  State.runFor_induction (P := fun u => u.config = s.config)
    (fun u hu => (stepEffect_cycle u).config_eq.trans hu) n rfl

/-- Settles O40: a run keeps the depth within `floor(CAPACITY / 3)`, and CAPACITY as it is. -/
theorem stackNeverOverflows : Obligations.StackNeverOverflows := by
  intro s stackDepth n hinv hdepth
  calc (State.runFor n s).depth
      ≤ (State.runFor n s).capacity / 3 := (hinv.depthBounded.runFor n).depth_le
    _ = s.capacity / 3 := by rw [State.capacity_congr (State.runFor_config n s)]
    _ ≤ stackDepth := hdepth

end Sys2Proof.Machine
end

section
/-! PROOFS. The invariant at reset and along a step (10_state.md R21, R23, R25, R33), and what one cycle does to memory, to
`pc` and to the entries beneath those it takes (R20 to R24). -/

namespace Sys2Proof

/-! Which word is the sentinel (R76). -/

theorem Instr.ofMnemonic_ne_zeroWord (m : Mnemonic) (v : Operand) : Instr.ofMnemonic m v ≠ .zeroWord := by
  cases m <;> exact Instr.noConfusion

/-- Only the all-zero word decodes to the sentinel, as the zero test is on the whole word (R76, R103). -/
theorem decodeWord_eq_zeroWord {w : InstrWord} : decodeWord w = .instr .zeroWord ↔ w = 0 := by
  refine ⟨fun h => ?_, fun h => h ▸ decodeWord_zero⟩
  rcases decodeWord_cases w with ⟨hw, -⟩ | ⟨-, m, -, hd⟩ | ⟨-, -, hd⟩
  · exact hw
  · exact absurd (Decoded.instr.inj (hd.symm.trans h)) (Instr.ofMnemonic_ne_zeroWord m _)
  · exact Decoded.noConfusion (hd.symm.trans h)

end Sys2Proof

namespace Sys2Proof.Machine

/-! The recorded halt reason (R27, R140 to R144). -/

theorem not_mem_definedOpcodes {op : Opcode} (h : mnemonicOfOpcode op = none) : op ∉ definedOpcodes := by
  simpa [definedOpcodes] using mnemonicOfOpcode_eq_none.1 h

theorem State.statusSound_of_running {s : State} (h : s.status = .running) : s.StatusSound := by
  simp only [State.StatusSound, h]

theorem State.statusSound_halt {s : State} {r : HaltReason} :
    (s.halt r).StatusSound ↔ (s.halt r).ReasonSound r := Iff.rfl

/-- An instruction that halts the core records a reason that fits the state it leaves. -/
theorem Effect.statusSound {s t : State} {w : InstrWord} {i : Instr} (h : Effect s i t) (hs : s.status = .running)
    (hw : s.fetchWord s.pc = some w) (hd : decodeWord w = .instr i) : t.StatusSound := by
  cases h with
  | push _ | load _ | store _ _ | popcnt _ _ => exact State.statusSound_of_running hs
  | storeUnderflow _ | popcntUnderflow _ => exact State.statusSound_halt.2 rfl
  | loadOutside h =>
    exact State.statusSound_halt.2 ⟨rfl, h, (absoluteAddress_le _).trans (by decide)⟩
  | storeOutside _ h | popcntOutside _ h =>
    exact State.statusSound_halt.2 ⟨rfl, h, effectiveAddress_le _ _⟩
  | zeroWord =>
    have hzero : s.fetchWord s.pc = some 0 := decodeWord_eq_zeroWord.1 hd ▸ hw
    exact State.statusSound_halt.2 hzero

theorem StepEffect.statusSound {s t : State} (h : StepEffect s t) (hs : s.StatusSound) : t.StatusSound := by
  cases h with
  | halted _ => exact hs
  | endOfMemory _ hend => exact State.statusSound_halt.2 hend
  | undefined _ _ _ hop => exact State.statusSound_halt.2 ⟨rfl, not_mem_definedOpcodes hop⟩
  | instr hrun hw hd he => exact he.statusSound hrun hw hd

/-! The memory (R21). -/

/-- Memory keeps its canonical form, and no cell outside CAPACITY is listed: only STORE writes, and it writes in bounds. -/
theorem Effect.mem_wf_within {s t : State} {i : Instr} (h : Effect s i t) (hwf : s.mem.wf = true)
    (hin : s.mem.within s.capacity = true) : t.mem.wf = true ∧ t.mem.within t.capacity = true := by
  cases h with
  | store _ hea => exact ⟨Memory.wf_write _ _ hwf, Memory.within_write _ hea hin⟩
  | _ => exact ⟨hwf, hin⟩

theorem StepEffect.mem_wf_within {s t : State} (h : StepEffect s t) (hwf : s.mem.wf = true)
    (hin : s.mem.within s.capacity = true) : t.mem.wf = true ∧ t.mem.within t.capacity = true := by
  cases h with
  | instr _ _ _ he => exact he.mem_wf_within hwf hin
  | _ => exact ⟨hwf, hin⟩

/-! The invariant. -/

/-- Settles O38: the parts of the invariant that a cycle keeps, put together. -/
theorem stepKeepsInv : Obligations.StepKeepsInv := by
  intro s t hinv hstep
  have heff : StepEffect s t := effect_of_step hstep
  have haligned := hinv.pcAligned
  obtain ⟨hwf, hin⟩ := heff.mem_wf_within hinv.memWf hinv.memWithin
  obtain ⟨hpc, hdepth⟩ := heff.depthBounded hinv.depthBounded
  refine ⟨hwf, hin, ?_, hpc, hdepth, heff.statusSound hinv.statusSound⟩
  obtain ⟨-, hadvance, -⟩ | ⟨hstay, -⟩ := heff.pc_advances_or_pc_stack_eq <;> omega

theorem State.inv_resetWith (config : Config) : (State.resetWith config).Inv where
  memWf := rfl
  memWithin := rfl
  pcAligned := rfl
  pcInMemory := Nat.zero_le _
  depthBound := Nat.zero_le _
  statusSound := State.statusSound_of_running rfl

/-- Settles O37: `State.reset` is one of the reset states. -/
theorem invHoldsAfterReset : Obligations.InvHoldsAfterReset :=
  ⟨State.inv_resetWith, State.inv_resetWith Config.sample⟩

/-- Settles O36: reset does not look at the state it leaves, and an empty memory reads 0 everywhere. -/
theorem resetLeavesTheResetState : Obligations.ResetLeavesTheResetState := fun _ _ =>
  ⟨rfl, rfl, rfl, rfl, rfl, fun _ ha => State.memRead_eq_some.2 ⟨ha, rfl⟩⟩

/-! The entries beneath those an instruction takes (R22). -/

/-- The converse of `effect_of_exec`: each effect is the answer of `exec`. -/
theorem Effect.exec_eq {s t : State} {i : Instr} (h : Effect s i t) : exec i s = .next t := by
  cases h with
  | push _ | zeroWord => rfl
  | load h => exact execLoad_inside h
  | loadOutside h => exact execLoad_outside h
  | storeUnderflow h => exact execStore_underflow h
  | storeOutside hs h => exact execStore_outside hs h
  | store hs h => exact execStore_inside hs h
  | popcntUnderflow h => exact execPopcnt_underflow h
  | popcntOutside hs h => exact execPopcnt_outside hs h
  | popcnt hs h => exact execPopcnt_inside hs h

/-- The state with further entries at the bottom of its stack. -/
def State.withBottom (s : State) (bottom : List Entry) : State := s.setStack (s.stack ++ bottom)

theorem State.withBottom_stack {s : State} {l : List Entry} (h : s.stack = l) (bottom : List Entry) :
    (s.withBottom bottom).stack = l ++ bottom := by
  rw [State.withBottom, State.setStack_stack, h]

/-- Where the stack holds what the instruction takes, its effect is the same above any further entries. -/
theorem Effect.withBottom {s t : State} {i : Instr} (h : Effect s i t) (hdepth : entriesTaken i ≤ s.depth)
    (bottom : List Entry) : Effect (s.withBottom bottom) i (t.withBottom bottom) := by
  cases h with
  | push v => exact .push v
  | load h => exact .load h
  | loadOutside h => exact .loadOutside h
  | storeUnderflow h | popcntUnderflow h => exact absurd hdepth (Nat.not_le.2 h)
  | storeOutside hs h => exact .storeOutside (State.withBottom_stack hs bottom) h
  | store hs h => exact .store (State.withBottom_stack hs bottom) h
  | popcntOutside hs h => exact .popcntOutside (State.withBottom_stack hs bottom) h
  | popcnt hs h => exact .popcnt (State.withBottom_stack hs bottom) h
  | zeroWord => exact .zeroWord

/-- Settles O27: the meaning's effect, carried over to the deeper stack, is the meaning's answer there. -/
theorem entriesBeneathAreUntouched : Obligations.EntriesBeneathAreUntouched := by
  intro i s bottom hdepth
  obtain ⟨t, ht, heff⟩ := exec_effect i s
  exact ⟨t, ht, (heff.withBottom hdepth bottom).exec_eq⟩

/-! The program counter (R24). -/

/-- The cycle ends before `pc` is advanced: the core is halted, or the end-of-memory test or the zero test ends it (R100,
R101, R103). -/
def State.EndsBeforeAdvance (s : State) : Prop :=
  (∃ r, s.status = .halted r) ∨ s.capacity ≤ s.pc + 2 ∨ s.fetchWord s.pc = some 0

theorem State.not_endsBeforeAdvance {s : State} {w : InstrWord} (hs : s.status = .running)
    (hw : s.fetchWord s.pc = some w) (hz : w ≠ 0) : ¬s.EndsBeforeAdvance := by
  rintro (⟨r, hr⟩ | hend | hzero)
  · exact Status.noConfusion (hs.symm.trans hr)
  · exact absurd hend (Nat.not_le.2 (State.fetchWord_eq_some.1 hw).1)
  · exact hz (Option.some.inj (hw.symm.trans hzero))

/-- Every instruction but the sentinel advances `pc`, faulting or not (R105). -/
theorem Effect.pc_eq_add_three {s t : State} {i : Instr} (h : Effect s i t) (hi : i ≠ .zeroWord) :
    t.pc = s.pc + 3 := by
  cases h with
  | zeroWord => exact absurd rfl hi
  | _ => rfl

/-- A cycle leaves `pc` where it ends before the advance, and adds 3 to it elsewhere. -/
theorem StepEffect.pc_eq {s t : State} (h : StepEffect s t) :
    (s.EndsBeforeAdvance ∧ t.pc = s.pc) ∨ (¬s.EndsBeforeAdvance ∧ t.pc = s.pc + 3) := by
  cases h with
  | halted hs => exact .inl ⟨.inl ⟨_, hs⟩, rfl⟩
  | endOfMemory _ hend => exact .inl ⟨.inr (.inl hend), rfl⟩
  | undefined hs hw hz _ => exact .inr ⟨State.not_endsBeforeAdvance hs hw hz, rfl⟩
  | @instr w i _ hs hw hd he =>
    by_cases hz : w = 0
    · subst hz
      obtain rfl : i = .zeroWord := (Decoded.instr.inj (decodeWord_zero.symm.trans hd)).symm
      cases he
      exact .inl ⟨.inr (.inr hw), rfl⟩
    · have hi : i ≠ .zeroWord := fun hi => hz (decodeWord_eq_zeroWord.1 (hi ▸ hd))
      exact .inr ⟨State.not_endsBeforeAdvance hs hw hz, he.pc_eq_add_three hi⟩

/-- Settles O31: a step answers a state, and `pc` in it is as the tests before the advance decide. -/
theorem pcStaysOrAdvancesByThree : Obligations.PcStaysOrAdvancesByThree := by
  refine ⟨fun _ => rfl, fun s => ?_⟩
  obtain ⟨t, ht, heff⟩ := step_effect s
  obtain ⟨hends, hpc⟩ | ⟨hruns, hpc⟩ := heff.pc_eq
  · exact ⟨t, ht, fun _ => hpc, fun hruns => absurd hends hruns⟩
  · exact ⟨t, ht, fun hends => absurd hends hruns, fun _ => hpc⟩

/-! Stores (R20, R130). -/

/-- An instruction after which a cell reads differently is a STORE whose effective address in bounds is that cell. -/
theorem Effect.store_of_memRead_ne {s t : State} {i : Instr} {a : Nat} (h : Effect s i t)
    (hne : t.memRead a ≠ s.memRead a) :
    ∃ v base value rest, i = .store v ∧ s.stack = base :: value :: rest ∧ a = effectiveAddress base v ∧
      a < s.capacity ∧ t.status = s.status ∧ t.memRead a = some (byteOfEntry value) := by
  cases h with
  | @store v base value rest hs hea =>
    have ha : a = effectiveAddress base v := by
      by_contra hother
      exact hne (by simp [State.memRead, Memory.read_write_other _ hother])
    subst ha
    exact ⟨v, base, value, rest, rfl, hs, rfl, hea, rfl,
      State.memRead_eq_some.2 ⟨hea, Memory.read_write_same _ _ _⟩⟩
  | _ => exact absurd (State.memRead_congr rfl rfl a) hne

/-- Settles O33: of all a cycle can do, only the STORE effect touches memory. -/
theorem onlyStoreChangesMemory : Obligations.OnlyStoreChangesMemory := by
  intro s t a hstep hne
  cases effect_of_step hstep with
  | @instr w _ _ hs hw hd he =>
    obtain ⟨v, base, value, rest, rfl, hstack, ha, hin, hstatus, hread⟩ := he.store_of_memRead_ne hne
    exact ⟨hs, hstatus.trans hs, w, v, base, value, rest, hw, hd, hstack, ha, hin, hread⟩
  | _ => exact absurd (State.memRead_congr rfl rfl a) hne

end Sys2Proof.Machine
end

section
/-! PROOFS. Memory (20_memory.md): the cells and the fetch (R41 to R47), what a STORE leaves for the fetches after it (R51,
R52), and the driver's load and snapshot (R55, R56). -/

namespace Sys2Proof

/-- The three bytes a word is put together from are its bytes; `wordOfBytes_extract` is the other direction (R43, R44). -/
theorem wordBytes_wordOfBytes (b0 b1 b2 : Byte) : wordBytes (wordOfBytes b0 b1 b2) = [b0, b1, b2] := by
  have hw := wordOfBytes_toNat b0 b1 b2
  have h0 := b0.isLt
  have h1 := b1.isLt
  have h2 := b2.isLt
  simp only [wordBytes, List.cons.injEq, and_true]
  refine ⟨?_, ?_, ?_⟩ <;> apply BitVec.eq_of_toNat_eq <;>
    simp only [BitVec.extractLsb'_toNat, Nat.shiftRight_eq_div_pow] <;> omega

end Sys2Proof

namespace Sys2Proof.Machine

/-! The cells (R41, R42, R47). -/

theorem State.memRead_setMem_congr {s : State} {m : Memory} {a : Nat} (h : m.read a = s.mem.read a) :
    (s.setMem m).memRead a = s.memRead a := by
  simp only [State.memRead, State.setMem_capacity, State.setMem_mem, h]

theorem State.memRead_setMem {s : State} {m : Memory} {a : Nat} (h : a < s.capacity) :
    (s.setMem m).memRead a = some (m.read a) := State.memRead_eq_some.2 ⟨h, rfl⟩

/-- Settles O12: a write in bounds is `Memory.write`, whose reads are known; the bounds test decides the rest. -/
theorem cellsArePlainStorage : Obligations.CellsArePlainStorage := by
  refine ⟨fun s a v ha => ?_, fun s a v ha => ?_, fun config a ha => State.memRead_eq_some.2 ⟨ha, rfl⟩⟩
  · have hsame : (s.setMem (s.mem.write a (byteOfEntry v))).memRead a = some (byteOfEntry v) := by
      rw [State.memRead_setMem ha, Memory.read_write_same]
    exact ⟨_, _, State.memWrite_eq_some.2 ⟨ha, rfl⟩, hsame, byteOfEntry_toNat v,
      fun a' hne => State.memRead_setMem_congr (Memory.read_write_other _ hne _), rfl, rfl, rfl, rfl⟩
  · exact ⟨State.memWrite_eq_none.2 ha, State.memRead_eq_none.2 ha⟩

/-! The fetch (R43). -/

/-- Settles O13: the fetch's two answers, and the step that meets the second. -/
theorem fetchWordReassemblesOrIsIncomplete : Obligations.FetchWordReassemblesOrIsIncomplete :=
  ⟨fun _ _ ha => ⟨_, State.fetchWord_eq_some.2 ⟨ha, rfl⟩, wordOfBytes_toNat _ _ _⟩,
    fun _ _ ha => State.fetchWord_eq_none.2 ha, fun _ hs hw => step_incomplete hs hw⟩

/-- A fetch in bounds finds each of its three cells at the cell's place in the word (R43, R44). -/
theorem State.fetchWord_extractLsb' {s : State} {a k : Nat} {b : Byte} (ha : a + 2 < s.capacity) (hk : k < 3)
    (hb : s.memRead (a + k) = some b) : ∃ w, s.fetchWord a = some w ∧ w.extractLsb' (8 * k) 8 = b := by
  refine ⟨_, State.fetchWord_eq_some.2 ⟨ha, rfl⟩, ?_⟩
  have hbytes := wordBytes_wordOfBytes (s.mem.read a) (s.mem.read (a + 1)) (s.mem.read (a + 2))
  simp only [wordBytes, List.cons.injEq, and_true] at hbytes
  obtain ⟨h0, h1, h2⟩ := hbytes
  obtain ⟨-, rfl⟩ := State.memRead_eq_some.1 hb
  match k with
  | 0 => exact h0
  | 1 => exact h1
  | 2 => exact h2

/-! A STORE, and the cycles after it (R51, R52). -/

/-- A cycle whose word is a STORE with its two entries and an address in bounds (R130). -/
theorem step_store_inside {s : State} {w : InstrWord} {v : Operand} {base value : Entry} {rest : List Entry}
    (hs : s.status = .running) (hw : s.fetchWord s.pc = some w) (hd : decodeWord w = .instr (.store v))
    (hstack : s.stack = base :: value :: rest) (hea : effectiveAddress base v < s.capacity) :
    step s =
      .next ((s.advancePc.setStack rest).setMem (s.mem.write (effectiveAddress base v) (byteOfEntry value))) :=
  (step_decoded hs hw hd).trans (execStore_inside hstack hea)

/-- Settles O32: the state after the STORE is known, and a fetch in it reads the written memory. -/
theorem storeIsSeenByTheNextFetch : Obligations.StoreIsSeenByTheNextFetch := by
  intro s w v base value rest hs hw hd hstack hea
  refine ⟨_, step_store_inside hs hw hd hstack hea, hs, rfl, fun a ha => ?_⟩
  refine State.fetchWord_eq_some.2 ⟨ha, ?_⟩
  simp only [State.setMem_mem, Memory.read_write]

/-- A cycle that is no STORE to a cell leaves the cell as it is: only a STORE changes memory (R21). -/
theorem State.memRead_cycle {s : State} {a : Nat} (h : ¬s.StoresTo a) : s.cycle.memRead a = s.memRead a := by
  by_contra hne
  obtain ⟨hs, -, w, v, base, value, rest, hw, hd, hstack, ha, hin, -⟩ :=
    onlyStoreChangesMemory s s.cycle a (step_eq_cycle s) hne
  exact h ⟨hs, w, v, base, value, rest, hw, hd, hstack, ha, hin⟩

/-- A run none of whose cycles is a STORE to a cell leaves the cell as it is (R47). -/
theorem State.memRead_runFor {s : State} {a n : Nat} (h : ∀ k, k < n → ¬(State.runFor k s).StoresTo a) :
    (State.runFor n s).memRead a = s.memRead a := by
  induction n with
  | zero => rfl
  | succ n ih =>
    rw [State.runFor_succ_last, State.memRead_cycle (h n n.lt_succ_self)]
    exact ih fun k hk => h k (Nat.lt_succ_of_lt hk)

theorem StepEffect.pc_le {s t : State} (h : StepEffect s t) : s.pc ≤ t.pc := by
  obtain ⟨-, hpc⟩ | ⟨-, hpc⟩ := h.pc_eq <;> omega

/-- `pc` never falls (R24). -/
theorem State.pc_le_runFor (n : Nat) (s : State) : s.pc ≤ (State.runFor n s).pc :=
  State.runFor_induction (P := fun u => s.pc ≤ u.pc) (fun u hu => hu.trans (stepEffect_cycle u).pc_le) n le_rfl

/-- Settles O46: the STORE puts the byte in its cell, the run leaves it there, and a fetch reads the cell. -/
theorem storedByteIsFetchedUntilStoredOver : Obligations.StoredByteIsFetchedUntilStoredOver := by
  intro s t w v base value rest n hs hw hd hstack hea hstep hnone
  have hcap : (State.runFor n t).capacity = s.capacity :=
    State.capacity_congr ((State.runFor_config n t).trans (effect_of_step hstep).config_eq)
  have hstored : t.memRead (effectiveAddress base v) = some (byteOfEntry value) := by
    rw [step_store_inside hs hw hd hstack hea] at hstep
    cases hstep
    exact State.memRead_eq_some.2 ⟨hea, Memory.read_write_same _ _ _⟩
  have hkept := (State.memRead_runFor hnone).trans hstored
  refine ⟨hkept, State.pc_le_runFor n t, fun a k hk ha hcover => ?_⟩
  exact State.fetchWord_extractLsb' (hcap ▸ ha) hk (hcover ▸ hkept)

/-! The driver's load and snapshot (R55, R56). -/

/-- Bytes written from address 0: byte `k` is cell `k`. -/
theorem Memory.read_writeBytes_zero (m : Memory) {bytes : List Byte} {k : Nat} (hk : k < bytes.length) :
    (m.writeBytes 0 bytes).read k = bytes[k] := by
  rw [Memory.read_writeBytes, dif_pos ⟨k.zero_le, hk⟩]
  rfl

theorem Memory.read_writeBytes_zero_above (m : Memory) {bytes : List Byte} {a : Nat} (ha : bytes.length ≤ a) :
    (m.writeBytes 0 bytes).read a = m.read a := by
  rw [Memory.read_writeBytes, dif_neg fun h => Nat.not_lt.2 ha h.2]

/-- Settles O44: the driver hands on what `loadProgram` answers, in each of its three cases. -/
theorem loadProgramCopiesOrFails : Obligations.LoadProgramCopiesOrFails := by
  refine ⟨fun s bytes hs hp hfit => ?_, fun s bytes hs hp hlarge => ?_, fun s bytes hlate => ?_⟩
  · have hload := State.loadProgram_eq_next.2 ⟨hs, hp, hfit, rfl⟩
    refine ⟨s.setMem (s.mem.writeBytes 0 bytes), by rw [State.perform, hload], rfl, rfl, rfl, rfl, fun k hk => ?_,
      fun a ha => State.memRead_setMem_congr (Memory.read_writeBytes_zero_above _ ha)⟩
    rw [State.memRead_setMem (hk.trans_le hfit), Memory.read_writeBytes_zero]
  · rw [State.perform, State.loadProgram_too_large hs hp hlarge]
  · rw [State.perform, State.loadProgram_late hlate]

/-- Settles O45: pair `k` of the listing is made from address `start + k`, which the range keeps in memory. -/
theorem snapshotListsTheCells : Obligations.SnapshotListsTheCells := by
  refine ⟨fun s start stop hle hcap => ?_, fun s start stop hout => ?_⟩
  · refine ⟨_, by rw [State.perform, State.memorySnapshot_inside ⟨hle, hcap⟩], by simp, fun k hk => ?_⟩
    simp only [List.length_map, List.length_range'] at hk
    have hin : start + k < s.capacity := by omega
    simp [State.memRead_eq_some, hin]
  · rw [State.perform, State.memorySnapshot_outside (by omega)]

end Sys2Proof.Machine
end

section
/-! PROOFS. The encoding (30_encoding.md): decode and encode are inverse to each other, on words, through bytes and through a
loaded program (R72, R73, R80, R83); which word decodes to what (R75 to R79); and what the assembler emits (R80 to R84). -/

namespace Sys2Proof

/-! Decode after encode (R76, R83). -/

/-- Every instruction is the sentinel, or a mnemonic with an operand (R75, R76). -/
theorem Instr.eq_zeroWord_or_ofMnemonic (i : Instr) : i = .zeroWord ∨ ∃ m v, i = Instr.ofMnemonic m v := by
  cases i with
  | push v => exact .inr ⟨.push, v, rfl⟩
  | load v => exact .inr ⟨.load, v, rfl⟩
  | store v => exact .inr ⟨.store, v, rfl⟩
  | popcnt v => exact .inr ⟨.popcnt, v, rfl⟩
  | zeroWord => exact .inl rfl

theorem decodeWord_encodeFields (m : Mnemonic) (v : Operand) :
    decodeWord (encodeFields m v) = .instr (Instr.ofMnemonic m v) := by
  have hop : mnemonicOfOpcode (opcodeField (encodeFields m v)) = some m := by
    rw [opcodeField_encodeFields, mnemonicOfOpcode_opcodeOf]
  rw [decodeWord_of_mnemonic (encodeFields_ne_zero m v) hop, operandField_encodeFields]

@[simp] theorem decodeWord_encode (i : Instr) : decodeWord (encode i) = .instr i := by
  obtain rfl | ⟨m, v, rfl⟩ := i.eq_zeroWord_or_ofMnemonic
  · exact decodeWord_zero
  · rw [encode_ofMnemonic, decodeWord_encodeFields]

/-- Decoding from bytes sees the word that the first three of them hold (R44, R72). -/
theorem decodeBytes_wordBytes_append (w : InstrWord) (rest : List Byte) :
    decodeBytes (wordBytes w ++ rest) = some (decodeWord w, rest) :=
  congrArg (fun w' => some (decodeWord w', rest)) (wordOfBytes_extract w)

/-- Settles O1: the three bytes give back the word, and the word gives back the instruction. -/
theorem decodeOfEncodedBytesIsIdentity : Obligations.DecodeOfEncodedBytesIsIdentity := by
  intro i rest
  rw [encodeBytes, decodeBytes_wordBytes_append, decodeWord_encode]

/-! Encode after decode (R73, R83). -/

/-- A word is the encoding of a mnemonic and an operand exactly when its two fields say so: the fields are the whole word. -/
theorem encodeFields_eq_iff {m : Mnemonic} {v : Operand} {w : InstrWord} :
    encodeFields m v = w ↔ opcodeField w = opcodeOf m ∧ operandField w = v := by
  constructor
  · rintro rfl
    exact ⟨opcodeField_encodeFields m v, operandField_encodeFields m v⟩
  · rintro ⟨hop, rfl⟩
    rw [encodeFields, ← hop, word_of_fields]

/-- The decoder answers an instruction on its encoding and on no other word. -/
theorem decodeWord_eq_instr_iff {w : InstrWord} {i : Instr} : decodeWord w = .instr i ↔ encode i = w := by
  refine ⟨fun h => ?_, fun h => h ▸ decodeWord_encode i⟩
  rcases decodeWord_cases w with ⟨rfl, hd⟩ | ⟨-, m, hop, hd⟩ | ⟨-, -, hd⟩
  · obtain rfl := Decoded.instr.inj (hd.symm.trans h)
    rfl
  · obtain rfl := Decoded.instr.inj (hd.symm.trans h)
    rw [encode_ofMnemonic, encodeFields_eq_iff]
    exact ⟨hop, rfl⟩
  · exact Decoded.noConfusion (hd.symm.trans h)

/-- Settles O3: an instruction is decoded from its encoding only. -/
theorem decodedWordIsItsEncoding : Obligations.DecodedWordIsItsEncoding :=
  fun _ _ => decodeWord_eq_instr_iff.1

theorem decodeWord_eq_ofMnemonic_iff {w : InstrWord} {m : Mnemonic} {v : Operand} :
    decodeWord w = .instr (Instr.ofMnemonic m v) ↔ opcodeField w = opcodeOf m ∧ operandField w = v := by
  rw [decodeWord_eq_instr_iff, encode_ofMnemonic, encodeFields_eq_iff]

/-- The undefined words are those that are not zero and whose opcode field has no mnemonic (R77, R107). -/
theorem decodeWord_eq_undefinedOpcode_iff {w : InstrWord} {op : Opcode} :
    decodeWord w = .undefinedOpcode op ↔ w ≠ 0 ∧ opcodeField w = op ∧ mnemonicOfOpcode op = none := by
  constructor
  · intro h
    rcases decodeWord_cases w with ⟨-, hd⟩ | ⟨-, m, -, hd⟩ | ⟨hw, hop, hd⟩
    · exact Decoded.noConfusion (hd.symm.trans h)
    · exact Decoded.noConfusion (hd.symm.trans h)
    · obtain rfl := Decoded.undefinedOpcode.inj (hd.symm.trans h)
      exact ⟨hw, rfl, hop⟩
  · rintro ⟨hw, rfl, hop⟩
    exact decodeWord_of_undefined hw hop

/-- Settles O4: one clause per answer of the decoder. -/
theorem wordsAreClassifiedByOpcode : Obligations.WordsAreClassifiedByOpcode := fun w =>
  ⟨decodeWord_eq_zeroWord,
    fun _ => decodeWord_eq_ofMnemonic_iff (m := .push),
    fun _ => decodeWord_eq_ofMnemonic_iff (m := .load),
    fun _ => decodeWord_eq_ofMnemonic_iff (m := .store),
    fun _ => decodeWord_eq_ofMnemonic_iff (m := .popcnt),
    fun op => by rw [decodeWord_eq_undefinedOpcode_iff, mnemonicOfOpcode_eq_none]⟩

/-- Settles O8: both directions are laws of the map. -/
theorem opcodeMapIsInverted : Obligations.OpcodeMapIsInverted := fun _ m =>
  ⟨mnemonicOfOpcode_eq_some, fun h => h ▸ mnemonicOfOpcode_opcodeOf m⟩

/-! The fields of a word (R72, R73). -/

theorem opcodeField_toNat (w : InstrWord) : (opcodeField w).toNat = w.toNat % 128 := by
  rw [opcodeField, BitVec.extractLsb'_toNat, Nat.shiftRight_zero]

theorem operandField_toNat (w : InstrWord) : (operandField w).toNat = w.toNat / 128 := by
  have hlt := w.isLt
  rw [operandField, BitVec.extractLsb'_toNat, Nat.shiftRight_eq_div_pow]
  omega

theorem opcodeField_eq_and (w : InstrWord) : opcodeField w = (w &&& 0x00007F).setWidth 7 := by
  have hmask : w.toNat &&& 127 = w.toNat % 128 := Nat.and_two_pow_sub_one_eq_mod w.toNat 7
  apply BitVec.eq_of_toNat_eq
  rw [opcodeField_toNat, BitVec.toNat_setWidth, BitVec.toNat_and]
  change _ = (w.toNat &&& 127) % 128
  omega

/-- A run of operand bits is a run of the word's bits, seven further up (R73). -/
theorem operandField_extractLsb' (w : InstrWord) {start len : Nat} (h : start + len ≤ 17) :
    (operandField w).extractLsb' start len = w.extractLsb' (7 + start) len := by
  ext i hi
  simp [operandField, Nat.add_assoc, show start + i < 17 by omega]

/-- Settles O5: each field, in bits and as a number. -/
theorem decodeSplitsTheWord : Obligations.DecodeSplitsTheWord := fun w =>
  ⟨opcodeField_eq_and w, opcodeField_toNat w, rfl, operandField_toNat w⟩

/-! The encoder's range (R80, R81). -/

theorem encodeCommand_of_wellFormed {c : Command} (h : c.wellFormed = true) :
    encodeCommand c = .ok (encode c.toInstr) := if_pos h

theorem encodeCommand_of_not_wellFormed {c : Command} (h : c.wellFormed = false) :
    encodeCommand c = .error ⟨c.sourceLine, c.operand⟩ := by
  rw [encodeCommand, h]
  rfl

/-- The operands in range are the 17-bit fields, read as numbers (R80). -/
theorem Command.wellFormed_iff_operand {c : Command} :
    c.wellFormed = true ↔ ∃ b : Operand, c.operand = b.toNat := by
  rw [Command.wellFormed_iff]
  constructor
  · rintro ⟨h0, hmax⟩
    refine ⟨BitVec.ofNat 17 c.operand.toNat, ?_⟩
    rw [BitVec.toNat_ofNat]
    omega
  · rintro ⟨b, hb⟩
    have hlt := b.isLt
    omega

/-- Encoding a mnemonic with a 17-bit field as its operand puts that field into the word (R80). -/
theorem encodeCommand_of_operand {c : Command} {b : Operand} (h : c.operand = b.toNat) :
    encodeCommand c = .ok (encodeFields c.mnemonic b) := by
  rw [encodeCommand_of_wellFormed (Command.wellFormed_iff_operand.2 ⟨b, h⟩), Command.toInstr, encode_ofMnemonic, h,
    BitVec.ofInt_natCast, BitVec.ofNat_toNat, BitVec.setWidth_eq]

/-- Settles O9: an operand in range is a field, and the word's number is known from its fields. -/
theorem encoderChecksTheRange : Obligations.EncoderChecksTheRange := by
  refine fun c => ⟨fun h0 hmax => ?_, fun hout => ?_⟩
  · obtain ⟨b, hb⟩ := Command.wellFormed_iff_operand.1 (Command.wellFormed_iff.2 ⟨h0, hmax⟩)
    refine ⟨_, encodeCommand_of_operand hb, ?_⟩
    rw [encodeFields_toNat, hb]
    rfl
  · apply encodeCommand_of_not_wellFormed
    rw [← Bool.not_eq_true, Command.wellFormed_iff]
    omega

/-- The encoder is injective: the word determines the mnemonic and the operand (R83). -/
theorem encodeFields_injective {m m' : Mnemonic} {v v' : Operand} (h : encodeFields m' v' = encodeFields m v) :
    m' = m ∧ v' = v := by
  obtain ⟨hop, hv⟩ := encodeFields_eq_iff.1 h
  rw [opcodeField_encodeFields] at hop
  rw [operandField_encodeFields] at hv
  exact ⟨Option.some.inj ((mnemonicOfOpcode_opcodeOf m').symm.trans (hop ▸ mnemonicOfOpcode_opcodeOf m)), hv.symm⟩

/-- Settles O2: the fields of an encoded word, and the encoder's injectivity on the words it makes. -/
theorem encodedFieldsRoundTrip : Obligations.EncodedFieldsRoundTrip := by
  refine ⟨fun m b => ⟨fun _ => encodeCommand_of_operand rfl, opcodeField_encodeFields m b,
    operandField_encodeFields m b, wordBytes_length _⟩, ?_⟩
  rintro w ⟨m, b, hd⟩
  have hw : encodeFields m b = w := encode_ofMnemonic m b ▸ decodeWord_eq_instr_iff.1 hd
  exact ⟨m, b, hw, fun _ _ h => encodeFields_injective (h.trans hw.symm)⟩

/-! The assembler (R81, R82). -/

/-- The bytes of a unit: three per command, in source order, with nothing between (R82). -/
def unitBytes (cs : List Command) : List Byte := cs.flatMap fun c => encodeBytes c.toInstr

theorem unitBytes_cons (c : Command) (cs : List Command) :
    unitBytes (c :: cs) = encodeBytes c.toInstr ++ unitBytes cs := List.flatMap_cons

theorem unitBytes_append (cs ds : List Command) : unitBytes (cs ++ ds) = unitBytes cs ++ unitBytes ds :=
  List.flatMap_append

theorem unitBytes_length (cs : List Command) : (unitBytes cs).length = 3 * cs.length := by
  induction cs with
  | nil => rfl
  | cons c cs ih =>
    rw [unitBytes_cons, List.length_append, ih, encodeBytes, wordBytes_length, List.length_cons]
    omega

theorem assemble_cons_of_wellFormed {c : Command} (h : c.wellFormed = true) (cs : List Command) :
    assemble (c :: cs) = (assemble cs).map (encodeBytes c.toInstr ++ ·) := by
  rw [assemble, encodeCommand_of_wellFormed h]
  cases assemble cs <;> rfl

theorem assemble_cons_of_not_wellFormed {c : Command} (h : c.wellFormed = false) (cs : List Command) :
    assemble (c :: cs) = .error ⟨c.sourceLine, c.operand⟩ := by
  rw [assemble, encodeCommand_of_not_wellFormed h]

theorem assemble_of_wellFormed {cs : List Command} (h : ∀ c ∈ cs, c.wellFormed = true) :
    assemble cs = .ok (unitBytes cs) := by
  induction cs with
  | nil => rfl
  | cons c cs ih =>
    obtain ⟨hc, hcs⟩ := List.forall_mem_cons.1 h
    rw [assemble_cons_of_wellFormed hc, ih hcs, unitBytes_cons]
    rfl

/-- The first offending command's error is the whole unit's answer (R81). -/
theorem assemble_of_first_error {before after : List Command} {c : Command}
    (h : ∀ d ∈ before, d.wellFormed = true) (hc : c.wellFormed = false) :
    assemble (before ++ c :: after) = .error ⟨c.sourceLine, c.operand⟩ := by
  induction before with
  | nil => exact assemble_cons_of_not_wellFormed hc after
  | cons d before ih =>
    obtain ⟨hd, hbefore⟩ := List.forall_mem_cons.1 h
    rw [List.cons_append, assemble_cons_of_wellFormed hd, ih hbefore]
    rfl

/-- A unit that assembles gives its bytes and no others (R82). -/
theorem eq_unitBytes_of_assemble {cs : List Command} {bytes : List Byte} (h : assemble cs = .ok bytes) :
    bytes = unitBytes cs := by
  induction cs generalizing bytes with
  | nil => exact (Except.ok.inj h).symm
  | cons c cs ih =>
    cases hc : c.wellFormed with
    | false =>
      rw [assemble_cons_of_not_wellFormed hc] at h
      cases h
    | true =>
      rw [assemble_cons_of_wellFormed hc] at h
      cases hcs : assemble cs with
      | error e =>
        rw [hcs] at h
        cases h
      | ok bs =>
        rw [hcs] at h
        rw [unitBytes_cons, ← ih hcs]
        exact (Except.ok.inj h).symm

/-- Settles O10: the unit's two answers, each by induction over its commands. -/
theorem unitIsConcatenatedOrAborted : Obligations.UnitIsConcatenatedOrAborted := by
  refine fun cs => ⟨fun h => ⟨_, assemble_of_wellFormed h, unitBytes_length cs, rfl⟩, ?_⟩
  rintro before c after rfl hbefore hc
  exact assemble_of_first_error hbefore hc

/-- Command `k`'s bytes stand in its unit's after three bytes for each command before it (R82). -/
theorem unitBytes_split (cs : List Command) (k : Nat) (hk : k < cs.length) :
    ∃ before after, unitBytes cs = before ++ encodeBytes (cs[k]).toInstr ++ after ∧ before.length = 3 * k := by
  refine ⟨unitBytes (cs.take k), unitBytes (cs.drop (k + 1)), ?_, ?_⟩
  · rw [List.append_assoc, ← unitBytes_cons, ← unitBytes_append, List.getElem_cons_drop, List.take_append_drop]
  · rw [unitBytes_length, List.length_take_of_le hk.le]

end Sys2Proof

namespace Sys2Proof.Machine

/-! A word in memory (R72). -/

theorem Memory.read_writeBytes_wordBytes (m : Memory) (a : Nat) (w : InstrWord) :
    (m.writeBytes a (wordBytes w)).read a = w.extractLsb' 0 8 ∧
    (m.writeBytes a (wordBytes w)).read (a + 1) = w.extractLsb' 8 8 ∧
    (m.writeBytes a (wordBytes w)).read (a + 2) = w.extractLsb' 16 8 := by
  simp [Memory.read_writeBytes, wordBytes]

/-- Settles O6: the three cells are the word's bytes, and each field's bits are looked up in them. -/
theorem wordIsPlacedLeastByteFirst : Obligations.WordIsPlacedLeastByteFirst := by
  intro m a w
  obtain ⟨h0, h1, h2⟩ := Memory.read_writeBytes_wordBytes m a w
  rw [h0, h1, h2]
  refine ⟨rfl, rfl, rfl, ?_, ?_, (operandField_extractLsb' w (start := 1) (len := 8) (by decide)).symm,
    (operandField_extractLsb' w (start := 9) (len := 8) (by decide)).symm⟩
  · ext i hi
    simp [opcodeField]
  · simp [operandField]

/-! A loaded program (R55, R82). -/

/-- A program that holds a word's bytes somewhere, loaded from address 0, is fetched there as that word (R44, R55). -/
theorem State.fetchWord_writeBytes_zero (s : State) (before after : List Byte) (w : InstrWord)
    (hfit : (before ++ wordBytes w ++ after).length ≤ s.capacity) :
    (s.setMem (s.mem.writeBytes 0 (before ++ wordBytes w ++ after))).fetchWord before.length = some w := by
  have hroom : before.length + 2 < s.capacity := by
    simp only [List.length_append, wordBytes_length] at hfit
    omega
  refine State.fetchWord_eq_some.2 ⟨hroom, ?_⟩
  simp [Memory.read_writeBytes, wordBytes]

/-- Settles O11: the load puts the unit's bytes from address 0, and command `k`'s stand at `3k` in them. -/
theorem loadedUnitIsFetchedInSourceOrder : Obligations.LoadedUnitIsFetchedInSourceOrder := by
  intro config cs bytes t hassemble hload k hk
  obtain rfl := eq_unitBytes_of_assemble hassemble
  obtain ⟨-, -, hfit, rfl⟩ := State.loadProgram_eq_next.1 hload
  obtain ⟨before, after, hbytes, hbefore⟩ := unitBytes_split cs k hk
  rw [hbytes] at hfit ⊢
  rw [← hbefore]
  exact ⟨_, State.fetchWord_writeBytes_zero _ before after _ hfit, rfl, decodeWord_encode _⟩

end Sys2Proof.Machine
end

section
/-! PROOFS. The cycle and the run (40_cycle_and_dispatch.md): the tests of a cycle and what each ends in (R100 to R107), and
the run, which dispatches a bounded number of cycles before a cycle halts the core (R108, R109). -/

namespace Sys2Proof.Machine

/-! The run. -/

/-- A cycle either reaches dispatch, for which three cells must remain at `pc`, and moves `pc` past them; or it leaves `pc`
and the core halted (R101, R103, R105). -/
theorem StepEffect.dispatches_or_halts {s t : State} (h : StepEffect s t) :
    (s.pc + 3 ≤ s.capacity ∧ t.pc = s.pc + 3) ∨ (t.pc = s.pc ∧ ∃ r, t.status = .halted r) := by
  cases h with
  | halted hs => exact .inr ⟨rfl, _, hs⟩
  | endOfMemory _ _ => exact .inr ⟨rfl, _, rfl⟩
  | undefined _ hw _ _ => exact .inl ⟨(State.fetchWord_eq_some.1 hw).1, rfl⟩
  | instr _ hw _ he =>
    cases he with
    | zeroWord => exact .inr ⟨rfl, _, rfl⟩
    | _ => exact .inl ⟨(State.fetchWord_eq_some.1 hw).1, rfl⟩

/-- A run of `n` cycles from `s` has dispatched `k` of them and is at `t`: every cycle was dispatched unless the core has
halted, and each dispatched cycle found its three cells in memory (R25 (d), R109). -/
structure State.Dispatched (s : State) (n k : Nat) (t : State) : Prop where
  pc_eq : t.pc = s.pc + 3 * k
  room : k = 0 ∨ s.pc + 3 * k ≤ s.capacity
  halted_or_all : (∃ r, t.status = .halted r) ∨ k = n

theorem State.Dispatched.le_capacity_div {s t : State} {n k : Nat} (h : s.Dispatched n k t) : k ≤ s.capacity / 3 := by
  have := h.room
  omega

/-- More cycles than memory has words for: the core has halted. -/
theorem State.Dispatched.halted {s t : State} {n k : Nat} (h : s.Dispatched n k t) (hn : s.capacity / 3 < n) :
    ∃ r, t.status = .halted r :=
  h.halted_or_all.resolve_right fun hk => absurd h.le_capacity_div (by omega)

/-- One cycle more: a halted core stays, and a running one dispatches the cycle or halts before it. -/
theorem State.Dispatched.cycle {s t : State} {n k : Nat} (h : s.Dispatched n k t) (hcap : t.capacity = s.capacity) :
    ∃ k', s.Dispatched (n + 1) k' t.cycle := by
  obtain ⟨hpc, hroom, hhalted | rfl⟩ := h
  · rw [State.cycle_of_halted (Status.isHalted_iff.2 hhalted)]
    exact ⟨k, hpc, hroom, .inl hhalted⟩
  · obtain ⟨hcells, hadvance⟩ | ⟨hstay, hhalted⟩ := (stepEffect_cycle t).dispatches_or_halts
    · exact ⟨k + 1, by omega, .inr (by omega), .inr rfl⟩
    · exact ⟨k, hstay.trans hpc, hroom, .inl hhalted⟩

theorem State.runFor_dispatched (n : Nat) (s : State) : ∃ k, s.Dispatched n k (State.runFor n s) := by
  induction n with
  | zero => exact ⟨0, rfl, .inl rfl, .inr rfl⟩
  | succ n ih =>
    obtain ⟨k, hk⟩ := ih
    rw [State.runFor_succ_last]
    exact hk.cycle (State.capacity_congr (State.runFor_config n s))

/-- R109: the core has halted once more cycles ran than memory has words for. -/
theorem State.runFor_halts {s : State} {n : Nat} (hn : s.capacity / 3 < n) :
    ∃ r, (State.runFor n s).status = .halted r := by
  obtain ⟨k, hk⟩ := State.runFor_dispatched n s
  exact hk.halted hn

/-- Settles O41: the run has dispatched some `k <= floor(CAPACITY / 3)` cycles, each of which moved `pc` by 3. -/
theorem runAlwaysHalts : Obligations.RunAlwaysHalts := by
  intro s
  obtain ⟨k, hk⟩ : ∃ k, s.Dispatched (s.capacity / 3 + 1) k s.run := State.runFor_dispatched _ s
  have hpc := hk.pc_eq
  have hbound := hk.le_capacity_div
  refine ⟨hk.halted (Nat.lt_succ_self _), by omega, by omega, by omega, ?_⟩
  simp only [State.cyclesExecuted, wordBytesCount_eq]
  omega

theorem State.runFor_add (m n : Nat) (s : State) : State.runFor (m + n) s = State.runFor n (State.runFor m s) := by
  induction n with
  | zero => rfl
  | succ n ih => rw [← Nat.add_assoc, State.runFor_succ_last, ih, ← State.runFor_succ_last]

/-- The bound of `run` cuts no run short: further cycles change nothing (R109, R150). -/
theorem State.runFor_eq_run {s : State} {n : Nat} (hn : s.capacity / 3 < n) : State.runFor n s = s.run := by
  obtain ⟨d, rfl⟩ := Nat.exists_eq_add_of_le (Nat.succ_le_of_lt hn)
  rw [State.runFor_add]
  exact State.runFor_of_halted (Status.isHalted_iff.2 (State.runFor_halts (Nat.lt_succ_self _))) d

/-- The host's run meets no fault and no refusal, as every step answers a next state. -/
theorem core_run_eq_runFor (n : Nat) (s : State) : Host.Core.run Sys2Proof.core n s = .next (State.runFor n s) := by
  induction n generalizing s with
  | zero => rfl
  | succ n ih => rw [State.runFor_succ, ← ih]; exact core_run_succ Sys2Proof.core n s s.cycle (step_eq_cycle s)

/-- A run of a halted core is over before its first cycle (R108, R150). -/
theorem State.run_of_halted {s : State} {r : HaltReason} (h : s.status = .halted r) : s.run = s :=
  State.runFor_of_halted (Status.isHalted_iff.2 ⟨r, h⟩) _

/-- Settles O42: the host's run is the model's, and past the bound the model's has halted. -/
theorem runIsStepRepeated : Obligations.RunIsStepRepeated := by
  refine ⟨fun s n hn => ?_, fun s r h => ⟨State.run_of_halted h, ?_⟩⟩
  · rw [core_run_eq_runFor, State.runFor_eq_run hn]
  · rw [State.perform, State.run_of_halted h, h]
    rfl

/-! The tests within a cycle. -/

/-- R103: a running core that fetches the zero word. -/
theorem step_zero {s : State} (hs : s.status = .running) (hw : s.fetchWord s.pc = some 0) :
    step s = .next (s.halt .normalEnd) := step_decoded hs hw decodeWord_zero

theorem State.fetchWord_of_mem_zero {s : State} {a : Nat} (ha : a + 2 < s.capacity) (hmem : ∀ a, s.mem.read a = 0) :
    s.fetchWord a = some 0 := by
  refine State.fetchWord_eq_some.2 ⟨ha, ?_⟩
  simp only [hmem]
  decide

/-- Settles O18: the sentinel's meaning is a halt, and the zero word alone decodes to it. -/
theorem zeroWordHaltsNormally : Obligations.ZeroWordHaltsNormally := by
  refine ⟨fun _ => rfl, fun _ => step_zero, fun w hw hd => hw (decodeWord_eq_zeroWord.1 hd),
    fun s hs hp hcap hmem => step_zero hs (State.fetchWord_of_mem_zero ?_ hmem)⟩
  omega

/-- R77: an opcode outside the descriptor table has no mnemonic; `not_mem_definedOpcodes` is the converse. -/
theorem mnemonicOfOpcode_eq_none_of_not_mem {op : Opcode} (h : op ∉ definedOpcodes) : mnemonicOfOpcode op = none :=
  mnemonicOfOpcode_eq_none.2 (by simpa [definedOpcodes] using h)

/-- Settles O24: the word decodes as undefined, and that arm of the step is the fault. -/
theorem undefinedWordHalts : Obligations.UndefinedWordHalts := fun _ _ hs hw hz hop =>
  step_undefined hs hw (decodeWord_of_undefined hz (mnemonicOfOpcode_eq_none_of_not_mem hop))

theorem decodeBytes_three (b0 b1 b2 : Byte) :
    decodeBytes [b0, b1, b2] = some (decodeWord (wordOfBytes b0 b1 b2), []) := rfl

/-- Settles O28: the fetched word is the one the three bytes make. -/
theorem stepRunsTheDecodedInstruction : Obligations.StepRunsTheDecodedInstruction := by
  intro s i hs hroom hbytes
  rw [decodeBytes_three] at hbytes
  have hd := congrArg Prod.fst (Option.some.inj hbytes)
  exact step_decoded hs (State.fetchWord_eq_some.2 ⟨hroom, rfl⟩) hd

/-- No instruction ends in EndOfMemory: that reason is the sequencer's alone (R101). -/
theorem Effect.status_ne_endOfMemory {s t : State} {i : Instr} (h : Effect s i t) (hs : s.status = .running) :
    t.status ≠ .halted .endOfMemory := by
  cases h with
  | push _ | load _ | store _ _ | popcnt _ _ =>
    intro hend
    exact Status.noConfusion (hs.symm.trans hend)
  | _ => simp

/-- A running core ends a cycle with EndOfMemory only where fewer than three cells remain at `pc` (R101). -/
theorem StepEffect.capacity_le_of_endOfMemory {s t : State} (h : StepEffect s t) (hs : s.status = .running)
    (ht : t.status = .halted .endOfMemory) : s.capacity ≤ s.pc + 2 := by
  cases h with
  | halted hh => exact Status.noConfusion (hs.symm.trans hh)
  | endOfMemory _ hend => exact hend
  | undefined _ _ _ _ => simp at ht
  | instr _ _ _ he => exact absurd ht (he.status_ne_endOfMemory hs)

theorem step_endOfMemory {s : State} (hs : s.status = .running) (h : s.capacity ≤ s.pc + 2) :
    step s = .next (s.halt .endOfMemory) := step_incomplete hs (State.fetchWord_eq_none.2 h)

/-- Settles O29: the fetch is Incomplete exactly there; after reset `pc` is 0. -/
theorem endOfMemoryTestComesFirst : Obligations.EndOfMemoryTestComesFirst := by
  refine ⟨fun _ => step_endOfMemory, fun s t hs hstep ht => ?_, fun _ => State.fetchWord_eq_none,
    fun config hcap => step_endOfMemory rfl ?_⟩
  · exact (effect_of_step hstep).capacity_le_of_endOfMemory hs ht
  · simp only [State.capacity_resetWith, State.resetWith_pc]
    omega

end Sys2Proof.Machine
end

section
/-! PROOFS. PUSH and LOAD (41_push_load.md): what each answers (R120, R121), and what the instructions that store nothing
leave unchanged (R103, R120, R121, R131, R149). -/

namespace Sys2Proof.Machine

/-! PUSH and LOAD. -/

/-- Settles O14: both are R120 as the encoder and the meaning state it. -/
theorem pushCompletes : Obligations.PushCompletes := fun _ _ => ⟨rfl, rfl⟩

/-- Settles O15: the address is the operand, and the entry is the cell, whose number zero-extension keeps. -/
theorem loadInBoundsCompletes : Obligations.LoadInBoundsCompletes := fun _ _ hin =>
  ⟨_, execLoad_inside hin, entryOfByte_toNat _⟩

/-- Settles O21: the address is the operand, and the meaning halts there without a push. -/
theorem loadOutOfBoundsHalts : Obligations.LoadOutOfBoundsHalts := fun _ _ hout => execLoad_outside hout

/-! The frame of the instructions that store nothing. -/

/-- An instruction that is no STORE leaves the configuration and every cell as they are (R20, R21). -/
theorem Effect.config_and_cells_eq {s t : State} {i : Instr} (h : Effect s i t) (hi : ∀ v, i ≠ .store v) :
    t.config = s.config ∧ ∀ a, t.memRead a = s.memRead a := by
  refine ⟨h.config_eq, fun a => ?_⟩
  by_contra hne
  obtain ⟨v, -, -, -, hstore, -⟩ := h.store_of_memRead_ne hne
  exact hi v hstore

/-- LOAD pushes one entry, or the address is outside and the core halts with a fault, nothing pushed (R121, R149). -/
theorem Effect.load_frame {s t : State} {v : Operand} (h : Effect s (.load v) t) :
    (t.stack.tail = s.stack ∧ t.status = s.status) ∨
      (t.stack = s.stack ∧ s.capacity ≤ v.toNat ∧ ∃ r, t.status = .halted r ∧ r.isFault = true) := by
  cases h with
  | load _ => exact .inl ⟨rfl, rfl⟩
  | loadOutside hout => exact .inr ⟨rfl, hout, _, rfl, rfl⟩

/-- POPCNT replaces the top entry, or the core halts with a fault, the top entry gone where there was one (R131, R149). -/
theorem Effect.popcnt_frame {s t : State} {v : Operand} (h : Effect s (.popcnt v) t) :
    (t.stack.tail = s.stack.tail ∧ t.depth = s.depth ∧ t.status = s.status) ∨
      (t.stack = s.stack.tail ∧ ∃ r, t.status = .halted r ∧ r.isFault = true) := by
  cases h with
  | popcntUnderflow hdepth =>
    have hempty : s.stack = [] := List.length_eq_zero_iff.1 (Nat.lt_one_iff.1 hdepth)
    exact .inr ⟨by simp [hempty], _, rfl, rfl⟩
  | popcntOutside hs _ => exact .inr ⟨by simp [hs], _, rfl, rfl⟩
  | popcnt hs _ => exact .inl ⟨by simp [hs], by simp [State.depth_of_stack_cons hs], rfl⟩

/-- Settles O25: no effect but STORE's changes a cell; the stack and the run state by each instruction's own cases. -/
theorem nonStoringInstructionsFrame : Obligations.NonStoringInstructionsFrame := by
  refine ⟨fun v s t h => ?_, fun v s t h => ?_, fun v s t h => ?_, fun s t h => ?_⟩ <;>
    obtain ⟨hconfig, hcells⟩ := (effect_of_exec h).config_and_cells_eq fun _ => Instr.noConfusion <;>
    refine ⟨hconfig, hcells, ?_⟩
  · cases effect_of_exec h
    exact ⟨rfl, rfl⟩
  · exact (effect_of_exec h).load_frame
  · exact (effect_of_exec h).popcnt_frame
  · cases effect_of_exec h
    exact ⟨rfl, rfl⟩

end Sys2Proof.Machine
end

section
/-! PROOFS. STORE and POPCNT (42_store_popcnt.md): the population count and the effective address (R132, R133), what each
instruction answers where it completes and where it halts (R130, R131), and what STORE leaves unchanged (R130, R149). -/

namespace Sys2Proof.Machine

/-! The population count (R132). -/

/-- The count's terms, taken over the bit numbers 0 to 7. -/
theorem popcount8_eq_sum_map (v : Byte) :
    popcount8 v = ((List.range 8).map fun k => (v.getLsbD k).toNat).sum := by
  simp [popcount8, List.range_succ, Nat.add_assoc]

theorem length_filter_eq_sum_map_toNat {α : Type} (p : α → Bool) (l : List α) :
    (l.filter p).length = (l.map fun x => (p x).toNat).sum := by
  induction l with
  | nil => rfl
  | cons x l ih => cases hx : p x <;> simp [hx, ih, Nat.add_comm]

/-- The count as the number of the bits that are one. -/
theorem popcount8_eq_length_filter (v : Byte) :
    popcount8 v = ((List.range 8).filter fun k => v.getLsbD k).length := by
  rw [popcount8_eq_sum_map, length_filter_eq_sum_map_toNat]

theorem popcount8_le (v : Byte) : popcount8 v ≤ 8 := by
  rw [popcount8_eq_length_filter]
  exact List.length_filter_le _ _

theorem getLsbD_toNat {n : Nat} (v : BitVec n) (k : Nat) : (v.getLsbD k).toNat = v.toNat / 2 ^ k % 2 :=
  Nat.toNat_testBit _ _

/-- Settles O19: each bit is the number shifted down, modulo 2; the listed values compute. -/
theorem popcountIsTheBitSum : Obligations.PopcountIsTheBitSum := by
  refine ⟨fun v => ⟨?_, popcount8_le v⟩, by decide⟩
  simp only [popcount8_eq_sum_map, getLsbD_toNat]

/-- A population count fits an entry, so that pushing it keeps the number (R131). -/
theorem entryOfCount_popcount8_toNat (v : Byte) : (entryOfCount (popcount8 v)).toNat = popcount8 v := by
  have := popcount8_le v
  exact Nat.mod_eq_of_lt (by omega)

/-! The effective address (R133). -/

/-- Settles O20: the address is the sum by definition, and its bound is reached by the largest base and operand. -/
theorem effectiveAddressNeverWraps : Obligations.EffectiveAddressNeverWraps :=
  ⟨fun base v => ⟨rfl, effectiveAddress_le base v⟩, rfl⟩

/-! Where STORE and POPCNT complete (R130, R131). -/

/-- Settles O16: the answer is one `Memory.write` at the effective address, whose reads are known. -/
theorem storeInBoundsCompletes : Obligations.StoreInBoundsCompletes := by
  intro v s base value rest hs hin
  have hsame : (s.mem.write (effectiveAddress base v) (byteOfEntry value)).read (effectiveAddress base v) =
      byteOfEntry value := Memory.read_write_same _ _ _
  exact ⟨_, _, execStore_inside hs hin, rfl, rfl, rfl, rfl, State.memRead_eq_some.2 ⟨hin, hsame⟩,
    byteOfEntry_toNat value, fun a ha => State.memRead_setMem_congr (Memory.read_write_other _ ha _)⟩

/-- Settles O17: the pushed entry is the count, and the count is the number of one bits. -/
theorem popcntInBoundsCompletes : Obligations.PopcntInBoundsCompletes := fun _ _ _ _ hs hin =>
  ⟨_, execPopcnt_inside hs hin, (entryOfCount_popcount8_toNat _).trans (popcount8_eq_length_filter _)⟩

/-! Where they halt (R130, R131, R149). -/

/-- Settles O22: the two halting cases of the meaning, the depth test first. -/
theorem storeHaltsOnUnderflowThenBounds : Obligations.StoreHaltsOnUnderflowThenBounds :=
  ⟨fun _ _ hdepth => execStore_underflow hdepth, fun _ _ _ _ _ hs hout => execStore_outside hs hout⟩

/-- Settles O23: the two halting cases of the meaning, the depth test first. -/
theorem popcntHaltsOnUnderflowThenBounds : Obligations.PopcntHaltsOnUnderflowThenBounds :=
  ⟨fun _ _ hdepth => execPopcnt_underflow hdepth, fun _ _ _ _ hs hout => execPopcnt_outside hs hout⟩

/-! The frame of STORE. -/

theorem State.not_depth_lt_two {s : State} {top beneath : Entry} {rest : List Entry}
    (h : s.stack = top :: beneath :: rest) : ¬s.depth < 2 := by
  simp [State.depth_of_stack_cons h]

/-- Settles O26: of STORE's three effects the one in bounds alone writes, at its effective address, and the other two are
faults. -/
theorem storeFrame : Obligations.StoreFrame := by
  intro v s t hexec
  have heff := effect_of_exec hexec
  refine ⟨heff.config_eq, ?_⟩
  cases heff with
  | storeUnderflow hdepth =>
    exact ⟨fun _ _ _ hs => absurd hdepth (State.not_depth_lt_two hs),
      fun _ => ⟨rfl, State.memRead_congr rfl rfl⟩, .inr ⟨_, rfl, rfl⟩⟩
  | storeOutside hs hout =>
    refine ⟨fun _ _ _ hs' => ?_, fun hdepth => absurd hdepth (State.not_depth_lt_two hs), .inr ⟨_, rfl, rfl⟩⟩
    cases hs.symm.trans hs'
    exact ⟨rfl, fun a _ => State.memRead_congr rfl rfl a, fun _ => State.memRead_congr rfl rfl,
      fun hin => absurd hin (Nat.not_lt.2 hout)⟩
  | store hs hin =>
    refine ⟨fun _ _ _ hs' => ?_, fun hdepth => absurd hdepth (State.not_depth_lt_two hs), .inl rfl⟩
    cases hs.symm.trans hs'
    exact ⟨rfl, fun a ha => State.memRead_setMem_congr (Memory.read_write_other _ ha _),
      fun hout => absurd hin (Nat.not_lt.2 hout), fun _ => rfl⟩

end Sys2Proof.Machine
end

section
/-! PROOFS. Exceptions (60_exceptions.md): the five ways a running core halts, each with its cause, its payload and the state
it leaves (R140 to R145, R148, R149); the order of the tests within a cycle (R147); and the way out of Halted (R150). -/

namespace Sys2Proof.Machine

/-! The data access of an instruction (R121, R130, R131). -/

/-- The instruction accesses the data cell at this address, in bounds or not: for STORE and POPCNT, once the depth test has
passed. -/
inductive State.Accesses (s : State) : Instr → Nat → Prop where
  | load (v : Operand) : s.Accesses (.load v) (absoluteAddress v)
  | store {v : Operand} {base value : Entry} {rest : List Entry} (hs : s.stack = base :: value :: rest) :
      s.Accesses (.store v) (effectiveAddress base v)
  | popcnt {v : Operand} {base : Entry} {rest : List Entry} (hs : s.stack = base :: rest) :
      s.Accesses (.popcnt v) (effectiveAddress base v)

theorem State.accesses_load_iff {s : State} {v : Operand} {a : Nat} :
    s.Accesses (.load v) a ↔ a = absoluteAddress v := by
  constructor
  · intro hacc
    cases hacc with
    | load _ => rfl
  · rintro rfl
    exact .load v

theorem State.accesses_store_iff {s : State} {v : Operand} {a : Nat} :
    s.Accesses (.store v) a ↔ 2 ≤ s.depth ∧ ∃ base, s.stack.head? = some base ∧ a = effectiveAddress base v := by
  constructor
  · intro hacc
    cases hacc with
    | store hs => exact ⟨Nat.not_lt.1 (State.not_depth_lt_two hs), _, by rw [hs, List.head?_cons], rfl⟩
  · rintro ⟨hdepth, base, hbase, rfl⟩
    obtain ⟨rest, hs⟩ := List.head?_eq_some_iff.1 hbase
    cases rest with
    | nil => simp [State.depth, hs] at hdepth
    | cons value rest => exact .store hs

theorem State.accesses_popcnt_iff {s : State} {v : Operand} {a : Nat} :
    s.Accesses (.popcnt v) a ↔ 1 ≤ s.depth ∧ ∃ base, s.stack.head? = some base ∧ a = effectiveAddress base v := by
  constructor
  · intro hacc
    cases hacc with
    | popcnt hs => exact ⟨by simp [State.depth_of_stack_cons hs], _, by rw [hs, List.head?_cons], rfl⟩
  · rintro ⟨-, base, hbase, rfl⟩
    obtain ⟨rest, hs⟩ := List.head?_eq_some_iff.1 hbase
    exact .popcnt hs

/-- The instructions with a data access, and its address, as the statements of the family write them: with the depth test
and the top entry. -/
theorem State.exists_accesses_iff {s : State} {w : InstrWord} {a : Nat} :
    (∃ i, decodeWord w = .instr i ∧ s.Accesses i a) ↔
      ∃ v, decodeWord w = .instr (.load v) ∧ a = absoluteAddress v ∨
        (decodeWord w = .instr (.store v) ∧ 2 ≤ s.depth ∨ decodeWord w = .instr (.popcnt v) ∧ 1 ≤ s.depth) ∧
          ∃ base, s.stack.head? = some base ∧ a = effectiveAddress base v := by
  constructor
  · rintro ⟨i, hd, hacc⟩
    cases i with
    | load v => exact ⟨v, .inl ⟨hd, State.accesses_load_iff.1 hacc⟩⟩
    | store v =>
      obtain ⟨hdepth, hbase⟩ := State.accesses_store_iff.1 hacc
      exact ⟨v, .inr ⟨.inl ⟨hd, hdepth⟩, hbase⟩⟩
    | popcnt v =>
      obtain ⟨hdepth, hbase⟩ := State.accesses_popcnt_iff.1 hacc
      exact ⟨v, .inr ⟨.inr ⟨hd, hdepth⟩, hbase⟩⟩
    | push _ | zeroWord => cases hacc
  · rintro ⟨v, ⟨hd, ha⟩ | ⟨⟨hd, hdepth⟩ | ⟨hd, hdepth⟩, hbase⟩⟩
    · exact ⟨_, hd, State.accesses_load_iff.2 ha⟩
    · exact ⟨_, hd, State.accesses_store_iff.2 ⟨hdepth, hbase⟩⟩
    · exact ⟨_, hd, State.accesses_popcnt_iff.2 ⟨hdepth, hbase⟩⟩

/-! The two faults an instruction can raise (R142, R143, R149). -/

/-- The state after an instruction that popped what it takes and found its address outside (log 7). -/
def State.outOfBoundsHalt (s : State) (i : Instr) (a : Nat) : State :=
  (s.advancePc.setStack (s.stack.drop (entriesTaken i))).halt (.outOfBounds a s.pc)

theorem State.outOfBoundsHalt_store {s : State} {base value : Entry} {rest : List Entry}
    (hs : s.stack = base :: value :: rest) (v : Operand) (a : Nat) :
    s.outOfBoundsHalt (.store v) a = (s.advancePc.setStack rest).halt (.outOfBounds a s.pc) := by
  rw [State.outOfBoundsHalt, hs]
  rfl

theorem State.outOfBoundsHalt_popcnt {s : State} {base : Entry} {rest : List Entry}
    (hs : s.stack = base :: rest) (v : Operand) (a : Nat) :
    s.outOfBoundsHalt (.popcnt v) a = (s.advancePc.setStack rest).halt (.outOfBounds a s.pc) := by
  rw [State.outOfBoundsHalt, hs]
  rfl

/-- The depth test comes before the address is formed: with too few entries the instruction underflows, whatever its
operand (R143, R147). -/
theorem exec_underflow {s : State} {i : Instr} (h : s.depth < entriesTaken i) :
    exec i s = .next (s.advancePc.halt (.stackUnderflow s.pc)) := by
  cases i with
  | store v => exact execStore_underflow h
  | popcnt v => exact execPopcnt_underflow h
  | push _ | load _ | zeroWord => exact absurd h (Nat.not_lt_zero _)

theorem exec_outside {s : State} {i : Instr} {a : Nat} (hacc : s.Accesses i a) (hout : s.capacity ≤ a) :
    exec i s = .next (s.outOfBoundsHalt i a) := by
  cases hacc with
  | load v => exact execLoad_outside hout
  | store hs =>
    rw [State.outOfBoundsHalt_store hs]
    exact execStore_outside hs hout
  | popcnt hs =>
    rw [State.outOfBoundsHalt_popcnt hs]
    exact execPopcnt_outside hs hout

/-! The halts of a cycle. -/

/-- The ways a running core halts in a cycle: the reason, its cause, and the state the cycle leaves (R140 to R145, R149). -/
inductive HaltEffect (s : State) : HaltReason → State → Prop where
  | endOfMemory (hend : s.capacity ≤ s.pc + 2) : HaltEffect s .endOfMemory (s.halt .endOfMemory)
  | normalEnd (hw : s.fetchWord s.pc = some 0) : HaltEffect s .normalEnd (s.halt .normalEnd)
  | undefinedInstruction {w : InstrWord} (hw : s.fetchWord s.pc = some w) (hz : w ≠ 0)
      (hop : opcodeField w ∉ definedOpcodes) :
      HaltEffect s (.undefinedInstruction (opcodeField w) s.pc) (s.undefinedInstruction (opcodeField w))
  | stackUnderflow {w : InstrWord} {i : Instr} (hw : s.fetchWord s.pc = some w) (hd : decodeWord w = .instr i)
      (hdepth : s.depth < entriesTaken i) :
      HaltEffect s (.stackUnderflow s.pc) (s.advancePc.halt (.stackUnderflow s.pc))
  | outOfBounds {w : InstrWord} {i : Instr} {a : Nat} (hw : s.fetchWord s.pc = some w)
      (hd : decodeWord w = .instr i) (hacc : s.Accesses i a) (hout : s.capacity ≤ a) :
      HaltEffect s (.outOfBounds a s.pc) (s.outOfBoundsHalt i a)

theorem HaltEffect.status_eq {s t : State} {r : HaltReason} (h : HaltEffect s r t) : t.status = .halted r := by
  cases h <;> rfl

/-- Each cause decides the cycle of a running core (R147). -/
theorem HaltEffect.step_eq {s t : State} {r : HaltReason} (h : HaltEffect s r t) (hs : s.status = .running) :
    step s = .next t := by
  cases h with
  | endOfMemory hend => exact step_endOfMemory hs hend
  | normalEnd hw => exact step_zero hs hw
  | undefinedInstruction hw hz hop =>
    exact step_undefined hs hw (decodeWord_of_undefined hz (mnemonicOfOpcode_eq_none_of_not_mem hop))
  | stackUnderflow hw hd hdepth => exact (step_decoded hs hw hd).trans (exec_underflow hdepth)
  | outOfBounds hw hd hacc hout => exact (step_decoded hs hw hd).trans (exec_outside hacc hout)

theorem HaltEffect.step_halts {s t : State} {r : HaltReason} (h : HaltEffect s r t) (hs : s.status = .running) :
    step s = .next t ∧ t.status = .halted r := ⟨h.step_eq hs, h.status_eq⟩

/-- An instruction that halts the core does so in one of those ways. -/
theorem Effect.haltEffect {s t : State} {w : InstrWord} {i : Instr} {r : HaltReason} (h : Effect s i t)
    (hs : s.status = .running) (hw : s.fetchWord s.pc = some w) (hd : decodeWord w = .instr i)
    (ht : t.status = .halted r) : HaltEffect s r t := by
  cases h with
  | push _ | load _ | store _ _ | popcnt _ _ => exact Status.noConfusion (hs.symm.trans ht)
  | zeroWord =>
    cases ht
    exact .normalEnd (decodeWord_eq_zeroWord.1 hd ▸ hw)
  | storeUnderflow hdepth | popcntUnderflow hdepth =>
    cases ht
    exact .stackUnderflow hw hd hdepth
  | loadOutside hout =>
    cases ht
    exact .outOfBounds hw hd (.load _) hout
  | storeOutside hst hout =>
    cases ht
    rw [← State.outOfBoundsHalt_store hst]
    exact .outOfBounds hw hd (.store hst) hout
  | popcntOutside hst hout =>
    cases ht
    rw [← State.outOfBoundsHalt_popcnt hst]
    exact .outOfBounds hw hd (.popcnt hst) hout

/-- A running core halts in no other way. -/
theorem StepEffect.haltEffect {s t : State} {r : HaltReason} (h : StepEffect s t) (hs : s.status = .running)
    (ht : t.status = .halted r) : HaltEffect s r t := by
  cases h with
  | halted hh => exact Status.noConfusion (hs.symm.trans hh)
  | endOfMemory _ hend =>
    cases ht
    exact .endOfMemory hend
  | undefined _ hw hz hop =>
    cases ht
    exact .undefinedInstruction hw hz (not_mem_definedOpcodes hop)
  | instr _ hw hd he => exact he.haltEffect hs hw hd ht

/-! The order of the tests, the causes, and what a halt leaves. -/

/-- Settles O30: the causes of R147 are those of the halts, and each decides the cycle. -/
theorem testsAreMadeInOrder : Obligations.TestsAreMadeInOrder := by
  refine ⟨fun _ _ => step_halted, fun _ hs hend => ⟨_, HaltEffect.step_halts (.endOfMemory hend) hs⟩,
    fun _ hs hw => ⟨_, HaltEffect.step_halts (.normalEnd hw) hs⟩,
    fun _ _ hs hw hz hop => ⟨_, _, HaltEffect.step_halts (.undefinedInstruction hw hz hop) hs⟩,
    fun _ _ _ hs hw hd hdepth => ⟨_, _, HaltEffect.step_halts (.stackUnderflow hw hd hdepth) hs⟩,
    fun s w v hs hw hcause => ?_⟩
  obtain ⟨a, hout, i, hd, hacc⟩ : ∃ a, s.capacity ≤ a ∧ ∃ i, decodeWord w = .instr i ∧ s.Accesses i a := by
    simp only [State.exists_accesses_iff]
    obtain ⟨hd, hout⟩ | ⟨hd, base, hbase, hout⟩ := hcause
    · exact ⟨_, hout, v, .inl ⟨hd, rfl⟩⟩
    · exact ⟨_, hout, v, .inr ⟨hd, base, hbase, rfl⟩⟩
  exact ⟨_, _, _, HaltEffect.step_halts (.outOfBounds hw hd hacc hout) hs⟩

/-- Settles O34: the causes of the ways a cycle halts. -/
theorem haltReasonsHaveTheirCauses : Obligations.HaltReasonsHaveTheirCauses := by
  intro s t r hs hstep ht
  cases (effect_of_step hstep).haltEffect hs ht with
  | endOfMemory hend => exact hend
  | normalEnd hw => exact hw
  | undefinedInstruction hw hz hop => exact ⟨rfl, hop, _, hw, hz, rfl⟩
  | stackUnderflow hw hd hdepth => exact ⟨rfl, _, _, hw, hd, hdepth⟩
  | outOfBounds hw hd hacc hout =>
    obtain ⟨v, hcause⟩ := State.exists_accesses_iff.1 ⟨_, hd, hacc⟩
    exact ⟨rfl, hout, _, v, hw, hcause⟩

/-- Settles O35: the states the ways to halt leave; the word at `pc` says which instruction popped its entries. -/
theorem haltingCycleLeavesMemory : Obligations.HaltingCycleLeavesMemory := by
  intro s t r hs hstep ht
  cases (effect_of_step hstep).haltEffect hs ht with
  | endOfMemory _ | normalEnd _ =>
    exact ⟨rfl, rfl, fun _ => ⟨rfl, rfl⟩, Bool.noConfusion, fun _ _ => HaltReason.noConfusion,
      fun _ => HaltReason.noConfusion, fun _ _ _ _ => HaltReason.noConfusion⟩
  | undefinedInstruction _ _ _ | stackUnderflow _ _ _ =>
    exact ⟨rfl, rfl, Bool.noConfusion, fun _ => rfl, fun _ _ _ => rfl, fun _ _ => rfl,
      fun _ _ _ _ => HaltReason.noConfusion⟩
  | outOfBounds hw hd _ _ =>
    refine ⟨rfl, rfl, Bool.noConfusion, fun _ => rfl, fun _ _ => HaltReason.noConfusion,
      fun _ => HaltReason.noConfusion, fun _ _ w' i' _ hw' hd' => ?_⟩
    cases hw.symm.trans hw'
    cases hd.symm.trans hd'
    rfl

/-! The way out of Halted (R150, R171). -/

theorem State.perform_memorySnapshot_state (s : State) (start stop : Nat) :
    (s.perform (.memorySnapshot start stop)).1 = s := by
  by_cases h : start ≤ stop ∧ stop ≤ s.capacity
  · rw [State.perform, State.memorySnapshot_inside h]
  · rw [State.perform, State.memorySnapshot_outside h]

/-- Settles O43: a halted core refuses a load, its cycle and its run are over, and a snapshot only reads. -/
theorem onlyResetLeavesHalted : Obligations.OnlyResetLeavesHalted := by
  refine ⟨fun s r op hs hop => ?_, fun _ _ => rfl⟩
  cases op with
  | reset config => exact absurd rfl (hop config)
  | loadProgram bytes =>
    have hlate : s.status ≠ .running := by simp [hs]
    rw [State.perform, State.loadProgram_late (.inl hlate)]
  | step => exact State.cycle_of_halted (Status.isHalted_iff.2 ⟨r, hs⟩)
  | run => exact State.run_of_halted hs
  | memorySnapshot start stop => exact s.perform_memorySnapshot_state start stop

end Sys2Proof.Machine
end

section
/-! PROOFS. The invariant under the driver's operations (70_reset_and_hazards.md R172): a cycle and a run keep it, a load that
fits writes inside memory, and a failed load and a snapshot leave the state as it is. -/

namespace Sys2Proof.Machine

/-- The invariant along one cycle, for the induction over a run. -/
theorem State.Inv.cycle {s : State} (h : s.Inv) : s.cycle.Inv := stepKeepsInv s s.cycle h (step_eq_cycle s)

theorem State.Inv.run {s : State} (h : s.Inv) : s.run.Inv :=
  State.runFor_induction (P := State.Inv) (fun _ => State.Inv.cycle) _ h

/-- A load succeeds only where its bytes fit and the core runs, so it lists no cell outside CAPACITY, and there is no halt
reason for the new memory to contradict (R55). -/
theorem State.Inv.loadProgram {s t : State} {bytes : List Byte} (h : s.Inv) (hload : s.loadProgram bytes = .next t) :
    t.Inv := by
  obtain ⟨hs, -, hfit, rfl⟩ := State.loadProgram_eq_next.1 hload
  exact {
    memWf := Memory.wf_writeBytes bytes 0 h.memWf
    memWithin := Memory.within_writeBytes bytes (by simpa using hfit) h.memWithin
    pcAligned := h.pcAligned
    pcInMemory := h.pcInMemory
    depthBound := h.depthBound
    statusSound := State.statusSound_of_running hs }

/-- The driver's load leaves the state of a load that succeeded, or changes nothing (R55, R152). -/
theorem State.perform_loadProgram_state (s : State) (bytes : List Byte) :
    s.loadProgram bytes = .next (s.perform (.loadProgram bytes)).1 ∨ (s.perform (.loadProgram bytes)).1 = s := by
  rw [State.perform]
  cases s.loadProgram bytes with
  | next t => exact .inl rfl
  | fault r =>
    cases r
    exact .inr rfl
  | refused r => exact .inr rfl

/-- Settles O39: one case per operation of R172. -/
theorem driverKeepsInv : Obligations.DriverKeepsInv := by
  intro s op hinv
  cases op with
  | reset config => exact State.inv_resetWith config
  | loadProgram bytes =>
    obtain hload | hsame := s.perform_loadProgram_state bytes
    · exact hinv.loadProgram hload
    · rwa [hsame]
  | step => exact hinv.cycle
  | run => exact hinv.run
  | memorySnapshot start stop => rwa [s.perform_memorySnapshot_state start stop]

end Sys2Proof.Machine
end

section
/-! PROOFS. The test vectors' words (95_test_vectors.md section 2): three bytes are decoded from what they encode, or from the
opcode field that no row of the descriptor table has. -/

namespace Sys2Proof.Machine

theorem decodeBytes_of_encodeBytes_eq {i : Instr} {bytes : List Byte} (h : encodeBytes i = bytes) :
    decodeBytes bytes = some (.instr i, []) := by
  simpa [h] using decodeOfEncodedBytesIsIdentity i []

/-- An undefined word from its bytes; the zero word is no such word, though opcode 0 is undefined (R76, R77). -/
theorem decodeBytes_of_undefined {b0 b1 b2 : Byte} {op : Opcode} (hw : wordOfBytes b0 b1 b2 ≠ 0)
    (hfield : opcodeField (wordOfBytes b0 b1 b2) = op) (hop : op ∉ definedOpcodes) :
    decodeBytes [b0, b1, b2] = some (.undefinedOpcode op, []) := by
  have hnone := mnemonicOfOpcode_eq_none_of_not_mem hop
  rw [decodeBytes_three, decodeWord_eq_undefinedOpcode_iff.2 ⟨hw, hfield, hnone⟩]

/-- Settles O7: six vectors are the bytes of an encoded instruction, and two have an opcode outside the table. -/
theorem knownWordsDecode : Obligations.KnownWordsDecode :=
  ⟨decodeBytes_of_encodeBytes_eq (i := .push 12345) (by decide),
    decodeBytes_of_encodeBytes_eq (i := .load 2047) (by decide),
    decodeBytes_of_encodeBytes_eq (i := .store 500) (by decide),
    decodeBytes_of_encodeBytes_eq (i := .popcnt 131071) (by decide),
    decodeBytes_of_encodeBytes_eq (i := .zeroWord) (by decide),
    decodeBytes_of_undefined (op := 0) (by decide) (by decide) (by decide),
    decodeBytes_of_encodeBytes_eq (i := .push 257) (by decide),
    decodeBytes_of_undefined (op := 127) (by decide) (by decide) (by decide)⟩

end Sys2Proof.Machine
end
